-- ==== Sys2Proof/Word.lean ====
section
/-! DEFINITION. The word types of the block: a byte of the buffer and a 16-bit quantity of the instruction stream
(00_scope.md R8, R9). Everything that computes on them stands in Decode.lean and under Machine/. -/

namespace Sys2Proof

/-- One byte of the buffer, 8 bits (20_memory.md R40). -/
abbrev Byte := BitVec 8

/-- A 16-bit quantity: a displacement, a direct address or a word immediate (20_memory.md R44). -/
abbrev Word := BitVec 16

end Sys2Proof
end

