-- ==== Sys2Proof/Machine/Value.lean ====
section
/-! DEFINITION. The values the block produces (10_state.md R27 to R30). A signed 8-bit or 16-bit value is kept as its
bits; `s8` and `s16` of Machine/Operands.lean give the number (00_scope.md R10). -/

namespace Sys2Proof.Machine

/-- The 16 register names (10_state.md R27), the byte set and then the word set, each in field order 000 to 111. -/
inductive Register where
  | al | cl | dl | bl | ah | ch | dh | bh
  | ax | cx | dx | bx | sp | bp | si | di
  deriving DecidableEq, Repr

/-- A decoded operand, the record of 10_state.md R28. -/
structure Location where
  isMemAddr : Bool
  register : Option Register
  addrCalc : Option Register
  displacement : Option Word
  deriving DecidableEq, Repr

/-- A decoded constant (10_state.md R29). -/
inductive Immediate where
  | byte (v : Byte)
  | word (v : Word)
  deriving DecidableEq, Repr

/-- The closed set of 29 variants (10_state.md R30). An increment is a signed 8-bit value, kept as its bits. -/
inductive Instruction where
  | mov (src dest : Location)
  | add (src dest : Location)
  | sub (src dest : Location)
  | cmp (src dest : Location)
  | movImmediate (data : Immediate) (dest : Location)
  | addImmediate (data : Immediate) (dest : Location)
  | subImmediate (data : Immediate) (dest : Location)
  | cmpImmediate (data : Immediate) (dest : Location)
  | je (increment : Byte)
  | jl (increment : Byte)
  | jle (increment : Byte)
  | jb (increment : Byte)
  | jbe (increment : Byte)
  | jp (increment : Byte)
  | jo (increment : Byte)
  | js (increment : Byte)
  | jne (increment : Byte)
  | jnl (increment : Byte)
  | jnle (increment : Byte)
  | jnb (increment : Byte)
  | jnbe (increment : Byte)
  | jnp (increment : Byte)
  | jno (increment : Byte)
  | jns (increment : Byte)
  | loop (increment : Byte)
  | loopz (increment : Byte)
  | loopnz (increment : Byte)
  | jcxz (increment : Byte)
  | noop
  deriving DecidableEq, Repr

end Sys2Proof.Machine
end

