-- ==== Sys2Proof/Machine/Flags.lean ====
section
/-! DEFINITION. The block has no status flags and no condition codes, and no instruction computes one (10_state.md R31):
no flag computation of the spec is left out here. What the source calls a flag are the bits `d`, `w` and `s` of an
encoding; `w` and `s` select a register set and an immediate (Machine/Operands.lean), and `d` selects the roles of the
two operands, which is this file. -/

namespace Sys2Proof.Machine

/-- The direction flag (41_operand_decoder.md R119): with `d = 0` the register operand `R` is the source and the r/m
operand `M` the destination, with `d = 1` the other way round. `op` takes the source first. -/
def directed (d : Bool) (op : Location → Location → Instruction) (R M : Location) : Instruction :=
  if d then op M R else op R M

end Sys2Proof.Machine
end

