-- ==== Sys2Proof/Syntax.lean ====
section
/-! DEFINITION. The instructions as the stream encodes them: one constructor of `Instr` per row of
spec/opcode_table.json, with the fields of 30_encoding.md R61 and R62 and the trailing bytes of R63 and R64.
The *values* the block emits (10_state.md R30) are in Machine/Value.lean. A one-bit field is a `Bool`, `true` for 1. -/

namespace Sys2Proof

/-- The `mod` and `rm` fields of a mode byte with the displacement bytes they call for, one constructor per row of
30_encoding.md R63. The `rm` codes are kept as the three bits of the encoding. -/
inductive RmField where
  /-- mod = 00 and rm not 110: no displacement bytes (41_operand_decoder.md R115). -/
  | base (rm : BitVec 3)
  /-- mod = 00 and rm = 110: a 16-bit direct address (R114). -/
  | direct (addr : Word)
  /-- mod = 01: one displacement byte (R116). -/
  | disp8 (rm : BitVec 3) (d : Byte)
  /-- mod = 10: two displacement bytes (R117). -/
  | disp16 (rm : BitVec 3) (d : Word)
  /-- mod = 11: a register (R113). -/
  | register (rm : BitVec 3)
  deriving DecidableEq, Repr

/-- The immediate bytes of the formats AI, RI and MI, which have no `s` (42_immediate_decoder.md R131): one byte when
`w = 0`, two when `w = 1`. The constructor is the width flag. -/
inductive ImmField where
  | byte (b : Byte)
  | word (v : Word)
  deriving DecidableEq, Repr

/-- The immediate bytes of format G1 with its `s` and `w` bits, one constructor per row of the table of
42_immediate_decoder.md R130. With `w = 0` the bit `s` is kept although it is ignored (R132). -/
inductive GroupImm where
  /-- w = 0, any s: one byte. -/
  | byte (s : Bool) (b : Byte)
  /-- w = 1 and s = 1: one byte, sign-extended. -/
  | signed (b : Byte)
  /-- w = 1 and s = 0: two bytes. -/
  | word (v : Word)
  deriving DecidableEq, Repr

/-- Why an encoding is unsupported (30_encoding.md R69). -/
inductive NoopCause where
  /-- The leading byte matches no row (46_noop.md R200). -/
  | leading (b0 : Byte)
  /-- The leading byte is `100000sw` and the mode byte `b1`, looked at and not consumed, has an unsupported sub-field
  (46_noop.md R201). -/
  | group (s w : Bool) (b1 : Byte)
  deriving DecidableEq, Repr

/-- The 35 rows of spec/opcode_table.json (30_encoding.md R66). -/
inductive Instr where
  /-- `100010dw mod reg rm` (43_mov.md R140). -/
  | movRmR (d w : Bool) (reg : BitVec 3) (rm : RmField)
  /-- `1100011w mod xxx rm`; `x` is the field that is not examined (43_mov.md R141). -/
  | movRmImm (x : BitVec 3) (rm : RmField) (imm : ImmField)
  /-- `1011wrrr` (43_mov.md R142). -/
  | movRImm (r : BitVec 3) (imm : ImmField)
  /-- `1010000w` (43_mov.md R143). -/
  | movAccMem (w : Bool) (addr : Word)
  /-- `1010001w` (43_mov.md R144). -/
  | movMemAcc (w : Bool) (addr : Word)
  /-- `000000dw mod reg rm` (44_arith.md R150). -/
  | addRmR (d w : Bool) (reg : BitVec 3) (rm : RmField)
  /-- `001010dw mod reg rm` (44_arith.md R151). -/
  | subRmR (d w : Bool) (reg : BitVec 3) (rm : RmField)
  /-- `001110dw mod reg rm` (44_arith.md R152). -/
  | cmpRmR (d w : Bool) (reg : BitVec 3) (rm : RmField)
  /-- `100000sw mod 000 rm` (44_arith.md R153). -/
  | addRmImm (rm : RmField) (imm : GroupImm)
  /-- `100000sw mod 101 rm` (44_arith.md R154). -/
  | subRmImm (rm : RmField) (imm : GroupImm)
  /-- `100000sw mod 111 rm` (44_arith.md R155). -/
  | cmpRmImm (rm : RmField) (imm : GroupImm)
  /-- `0000010w` (44_arith.md R156). -/
  | addAccImm (imm : ImmField)
  /-- `0010110w` (44_arith.md R157). -/
  | subAccImm (imm : ImmField)
  /-- `0011110w` (44_arith.md R158). -/
  | cmpAccImm (imm : ImmField)
  /-- 0x70 (45_jumps.md R171). -/
  | jo (inc : Byte)
  /-- 0x71 (R172). -/
  | jno (inc : Byte)
  /-- 0x72 (R173). -/
  | jb (inc : Byte)
  /-- 0x73 (R174). -/
  | jnb (inc : Byte)
  /-- 0x74 (R175). -/
  | je (inc : Byte)
  /-- 0x75 (R176). -/
  | jne (inc : Byte)
  /-- 0x76 (R177). -/
  | jbe (inc : Byte)
  /-- 0x77 (R178). -/
  | jnbe (inc : Byte)
  /-- 0x78 (R179). -/
  | js (inc : Byte)
  /-- 0x79 (R180). -/
  | jns (inc : Byte)
  /-- 0x7A (R181). -/
  | jp (inc : Byte)
  /-- 0x7B (R182). -/
  | jnp (inc : Byte)
  /-- 0x7C (R183). -/
  | jl (inc : Byte)
  /-- 0x7D (R184). -/
  | jnl (inc : Byte)
  /-- 0x7E (R185). -/
  | jle (inc : Byte)
  /-- 0x7F (R186). -/
  | jnle (inc : Byte)
  /-- 0xE0 (R187). -/
  | loopnz (inc : Byte)
  /-- 0xE1 (R188). -/
  | loopz (inc : Byte)
  /-- 0xE2 (R189). -/
  | loop (inc : Byte)
  /-- 0xE3 (R190). -/
  | jcxz (inc : Byte)
  /-- Every other byte, and a G1 leading byte with an unsupported sub-field (46_noop.md R200, R201). -/
  | noop (cause : NoopCause)
  deriving DecidableEq, Repr

end Sys2Proof
end

