-- ==== Sys2Proof/WellFormed.lean ====
section
/-! DEFINITION. Which terms of the syntax stand for an encoding: the checks that the types of Syntax.lean do not carry. -/

namespace Sys2Proof

/-- With mod = 00 the r/m code 110 is the direct address and no base (30_encoding.md R63). -/
def RmField.wf : RmField → Bool
  | .base rm => rm != 0b110#3
  | .direct _ => true
  | .disp8 _ _ => true
  | .disp16 _ _ => true
  | .register _ => true

/-- The 68 leading bytes that the map of 30_encoding.md R66 recognises, read off its cells row by row. -/
def recognisedLead (b : Byte) : Bool :=
  let n := b.toNat
  (n ≤ 0x05) || (0x28 ≤ n && n ≤ 0x2D) || (0x38 ≤ n && n ≤ 0x3D) || (0x70 ≤ n && n ≤ 0x7F) ||
    (0x80 ≤ n && n ≤ 0x83) || (0x88 ≤ n && n ≤ 0x8B) || (0xA0 ≤ n && n ≤ 0xA3) ||
    (0xB0 ≤ n && n ≤ 0xBF) || (0xC6 ≤ n && n ≤ 0xC7) || (0xE0 ≤ n && n ≤ 0xE3)

/-- The G1 sub-fields that the table of 30_encoding.md R68 supports: 000, 101 and 111. -/
def supportedSub (sub : Nat) : Bool :=
  sub == 0 || sub == 5 || sub == 7

/-- The cause of a noop is an unsupported leading byte (R66), or a mode byte whose bits 5:3 are an unsupported
sub-field (R68). -/
def NoopCause.wf : NoopCause → Bool
  | .leading b0 => !recognisedLead b0
  | .group _ _ b1 => !supportedSub (b1.toNat / 8 % 8)

/-- A term that some byte string decodes to. -/
def Instr.wf : Instr → Bool
  | .movRmR _ _ _ rm => rm.wf
  | .movRmImm _ rm _ => rm.wf
  | .movRImm _ _ => true
  | .movAccMem _ _ => true
  | .movMemAcc _ _ => true
  | .addRmR _ _ _ rm => rm.wf
  | .subRmR _ _ _ rm => rm.wf
  | .cmpRmR _ _ _ rm => rm.wf
  | .addRmImm rm _ => rm.wf
  | .subRmImm rm _ => rm.wf
  | .cmpRmImm rm _ => rm.wf
  | .addAccImm _ => true
  | .subAccImm _ => true
  | .cmpAccImm _ => true
  | .jo _ => true
  | .jno _ => true
  | .jb _ => true
  | .jnb _ => true
  | .je _ => true
  | .jne _ => true
  | .jbe _ => true
  | .jnbe _ => true
  | .js _ => true
  | .jns _ => true
  | .jp _ => true
  | .jnp _ => true
  | .jl _ => true
  | .jnl _ => true
  | .jle _ => true
  | .jnle _ => true
  | .loopnz _ => true
  | .loopz _ => true
  | .loop _ => true
  | .jcxz _ => true
  | .noop c => c.wf

end Sys2Proof
end

