-- ==== Sys2Proof/Decode.lean ====
section
/-! DEFINITION. From bytes to `Instr`, and back. The decoder is total on any byte list: it answers an instruction and
the bytes it left, or rejects by name (`DecodeStop`). It follows `Decode(b0)` of 40_dispatch.md R92 test by test; the
byte list is the cursor of 20_memory.md, its head the byte at `pos`. Then the encoder, written from the formats of
30_encoding.md R61 and R62, and the lengths of R65. -/

namespace Sys2Proof

/-! ### Bits and bytes -/

/-- `field(b, start, width)`, the single extractor (00_scope.md R9): the `width` bits from offset `start`, bit 0 being
the MOST significant. The precondition of R9, R49 and R244 is a proof argument, so no call outside it can be written. -/
def field (b : Byte) (start width : Nat) (_inRange : start + width ≤ 8 := by decide) : BitVec width :=
  b.extractLsb' (8 - start - width) width

/-- A one-bit field as a flag. -/
def flagAt (b : Byte) (start : Nat) (inRange : start + 1 ≤ 8 := by decide) : Bool :=
  field b start 1 inRange == 1#1

/-- `le16(lo, hi) = lo + 256 * hi` (00_scope.md R10, 20_memory.md R44). -/
def le16 (lo hi : Byte) : Word :=
  BitVec.ofNat 16 (lo.toNat + 256 * hi.toNat)

/-- The byte of a 16-bit quantity that stands at the lower offset. -/
def lowByte (v : Word) : Byte := v.extractLsb' 0 8

/-- The byte of a 16-bit quantity that stands at the higher offset. -/
def highByte (v : Word) : Byte := v.extractLsb' 8 8

/-! ### The cursor on a byte list -/

/-- The bytes from `pos` on. -/
abbrev Cursor := List Byte

/-- Why the decoder gives no instruction. -/
inductive DecodeStop where
  /-- No byte stands where a leading byte would (20_memory.md R43): the end of the run, not an error. -/
  | endOfStream
  /-- The encoding demands a byte beyond the last one (20_memory.md R41): `TruncatedInstruction`. -/
  | truncated
  deriving DecidableEq, Repr

/-- What a reader answers: a value and the bytes it left, or a stop. -/
inductive Read (α : Type) where
  | got (v : α) (rest : Cursor)
  | stop (r : DecodeStop)
  deriving DecidableEq, Repr

/-- One reader and then, on the bytes it left, another; a stop ends the whole. -/
def Read.andThen {α β : Type} (r : Read α) (f : α → Cursor → Read β) : Read β :=
  match r with
  | .got v rest => f v rest
  | .stop r => .stop r

/-- `Next()` inside a step (20_memory.md R41). -/
def next : Cursor → Read Byte
  | [] => .stop .truncated
  | b :: c => .got b c

/-- `Peek()` (20_memory.md R42): the byte `Next()` would return, nothing consumed. -/
def peek : Cursor → Read Byte
  | [] => .stop .truncated
  | b :: c => .got b (b :: c)

/-- `lo <- Next(); hi <- Next()`, joined low byte first (20_memory.md R44, R46). -/
def nextWord (c : Cursor) : Read Word :=
  (next c).andThen fun lo c =>
  (next c).andThen fun hi c =>
  .got (le16 lo hi) c

/-! ### Displacements and immediates -/

/-- The displacement bytes that `mod` and `rm` call for (30_encoding.md R63; 41_operand_decoder.md R113 to R117). -/
def readRm (mod : BitVec 2) (rm : BitVec 3) (c : Cursor) : Read RmField :=
  if mod = 0b11#2 then .got (.register rm) c
  else if mod = 0b00#2 then
    if rm = 0b110#3 then
      (nextWord c).andThen fun a c =>
      .got (.direct a) c
    else .got (.base rm) c
  else if mod = 0b01#2 then
    (next c).andThen fun d c =>
    .got (.disp8 rm d) c
  else
    (nextWord c).andThen fun d c =>
    .got (.disp16 rm d) c

/-- The bytes of `Imm(w, 0)` (42_immediate_decoder.md R130, R131). -/
def readImm (w : Bool) (c : Cursor) : Read ImmField :=
  if w then
    (nextWord c).andThen fun v c =>
    .got (.word v) c
  else
    (next c).andThen fun b c =>
    .got (.byte b) c

/-- The bytes of `Imm(w, s)` in format G1 (42_immediate_decoder.md R130, R132). -/
def readGroupImm (s w : Bool) (c : Cursor) : Read GroupImm :=
  if w then
    if s then
      (next c).andThen fun b c =>
      .got (.signed b) c
    else
      (nextWord c).andThen fun v c =>
      .got (.word v) c
  else
    (next c).andThen fun b c =>
    .got (.byte s b) c

/-! ### The formats -/

/-- Format RM (43_mov.md R140; 44_arith.md R150 to R152): `d` and `w`, the mode byte, its displacement. -/
def decodeRmR (mk : Bool → Bool → BitVec 3 → RmField → Instr) (b0 : Byte) (c : Cursor) : Read Instr :=
  (next c).andThen fun b1 c =>
  (readRm (field b1 0 2) (field b1 5 3) c).andThen fun rm c =>
  .got (mk (flagAt b0 6) (flagAt b0 7) (field b1 2 3) rm) c

/-- Format MI (43_mov.md R141): the reg field of the mode byte is carried along and not examined. -/
def decodeMovRmImm (b0 : Byte) (c : Cursor) : Read Instr :=
  (next c).andThen fun b1 c =>
  (readRm (field b1 0 2) (field b1 5 3) c).andThen fun rm c =>
  (readImm (flagAt b0 7) c).andThen fun imm c =>
  .got (.movRmImm (field b1 2 3) rm imm) c

/-- Format RI (43_mov.md R142): here `w` is bit 3 of the leading byte. -/
def decodeMovRImm (b0 : Byte) (c : Cursor) : Read Instr :=
  (readImm (flagAt b0 4) c).andThen fun imm c =>
  .got (.movRImm (field b0 5 3) imm) c

/-- Format AM (43_mov.md R143, R144): two address bytes for either `w`. -/
def decodeAccMem (mk : Bool → Word → Instr) (b0 : Byte) (c : Cursor) : Read Instr :=
  (nextWord c).andThen fun a c =>
  .got (mk (flagAt b0 7) a) c

/-- Format AI (44_arith.md R156 to R158). -/
def decodeAccImm (mk : ImmField → Instr) (b0 : Byte) (c : Cursor) : Read Instr :=
  (readImm (flagAt b0 7) c).andThen fun imm c =>
  .got (mk imm) c

/-- The operation that a G1 sub-field selects, where it is supported (30_encoding.md R68). -/
def groupRow (sub : BitVec 3) : Option (RmField → GroupImm → Instr) :=
  if sub = 0b000#3 then some .addRmImm
  else if sub = 0b101#3 then some .subRmImm
  else if sub = 0b111#3 then some .cmpRmImm
  else none

/-- Format G1 (44_arith.md R159): the mode byte is looked at before it is consumed; with an unsupported sub-field it
is left for the next step (46_noop.md R201). -/
def decodeGroup (b0 : Byte) (c : Cursor) : Read Instr :=
  (peek c).andThen fun b1 c =>
  match groupRow (field b1 2 3) with
  | none => .got (.noop (.group (flagAt b0 6) (flagAt b0 7) b1)) c
  | some mk =>
    (next c).andThen fun b1 c =>
    (readRm (field b1 0 2) (field b1 5 3) c).andThen fun rm c =>
    (readGroupImm (flagAt b0 6) (flagAt b0 7) c).andThen fun imm c =>
    .got (mk rm imm) c

/-- The twenty leading bytes of format J (30_encoding.md R67). -/
def jumpRow (b0 : Byte) : Option (Byte → Instr) :=
  if b0 = 0x70#8 then some .jo
  else if b0 = 0x71#8 then some .jno
  else if b0 = 0x72#8 then some .jb
  else if b0 = 0x73#8 then some .jnb
  else if b0 = 0x74#8 then some .je
  else if b0 = 0x75#8 then some .jne
  else if b0 = 0x76#8 then some .jbe
  else if b0 = 0x77#8 then some .jnbe
  else if b0 = 0x78#8 then some .js
  else if b0 = 0x79#8 then some .jns
  else if b0 = 0x7A#8 then some .jp
  else if b0 = 0x7B#8 then some .jnp
  else if b0 = 0x7C#8 then some .jl
  else if b0 = 0x7D#8 then some .jnl
  else if b0 = 0x7E#8 then some .jle
  else if b0 = 0x7F#8 then some .jnle
  else if b0 = 0xE0#8 then some .loopnz
  else if b0 = 0xE1#8 then some .loopz
  else if b0 = 0xE2#8 then some .loop
  else if b0 = 0xE3#8 then some .jcxz
  else none

/-- Format J (45_jumps.md R170): one increment byte. -/
def decodeJump (mk : Byte → Instr) (c : Cursor) : Read Instr :=
  (next c).andThen fun inc c =>
  .got (mk inc) c

/-- `Decode(b0)` (40_dispatch.md R92), the leading byte being the head of the list. -/
def decode : Cursor → Read Instr
  | [] => .stop .endOfStream
  | b0 :: c =>
    if b0 &&& 0xFC#8 = 0x88#8 then decodeRmR .movRmR b0 c
    else if b0 &&& 0xFE#8 = 0xC6#8 then decodeMovRmImm b0 c
    else if b0 &&& 0xF0#8 = 0xB0#8 then decodeMovRImm b0 c
    else if b0 &&& 0xFE#8 = 0xA0#8 then decodeAccMem .movAccMem b0 c
    else if b0 &&& 0xFE#8 = 0xA2#8 then decodeAccMem .movMemAcc b0 c
    else if b0 &&& 0xFC#8 = 0x00#8 then decodeRmR .addRmR b0 c
    else if b0 &&& 0xFC#8 = 0x28#8 then decodeRmR .subRmR b0 c
    else if b0 &&& 0xFC#8 = 0x38#8 then decodeRmR .cmpRmR b0 c
    else if b0 &&& 0xFC#8 = 0x80#8 then decodeGroup b0 c
    else if b0 &&& 0xFE#8 = 0x04#8 then decodeAccImm .addAccImm b0 c
    else if b0 &&& 0xFE#8 = 0x2C#8 then decodeAccImm .subAccImm b0 c
    else if b0 &&& 0xFE#8 = 0x3C#8 then decodeAccImm .cmpAccImm b0 c
    else match jumpRow b0 with
      | some mk => decodeJump mk c
      | none => .got (.noop (.leading b0)) c

/-! ### The encoder (30_encoding.md R61 to R64) -/

/-- The `mod` field. -/
def RmField.modBits : RmField → BitVec 2
  | .base _ => 0b00#2
  | .direct _ => 0b00#2
  | .disp8 _ _ => 0b01#2
  | .disp16 _ _ => 0b10#2
  | .register _ => 0b11#2

/-- The `rm` field. -/
def RmField.rmBits : RmField → BitVec 3
  | .base rm => rm
  | .direct _ => 0b110#3
  | .disp8 rm _ => rm
  | .disp16 rm _ => rm
  | .register rm => rm

/-- A 16-bit quantity in stream order, low byte first (20_memory.md R44). -/
def wordBytes (v : Word) : List Byte := [lowByte v, highByte v]

/-- The displacement bytes (R63). -/
def RmField.dispBytes : RmField → List Byte
  | .base _ => []
  | .direct a => wordBytes a
  | .disp8 _ d => [d]
  | .disp16 _ d => wordBytes d
  | .register _ => []

/-- The mode byte `mod reg rm` (R62). -/
def modeByte (rm : RmField) (reg : BitVec 3) : Byte := rm.modBits ++ reg ++ rm.rmBits

/-- The width flag that an immediate without `s` stands beside (R131). -/
def ImmField.w : ImmField → Bool
  | .byte _ => false
  | .word _ => true

/-- The immediate bytes (R64). -/
def ImmField.bytes : ImmField → List Byte
  | .byte b => [b]
  | .word v => wordBytes v

/-- The width flag of a G1 immediate. -/
def GroupImm.w : GroupImm → Bool
  | .byte _ _ => false
  | .signed _ => true
  | .word _ => true

/-- The sign-extend flag of a G1 immediate. -/
def GroupImm.s : GroupImm → Bool
  | .byte s _ => s
  | .signed _ => true
  | .word _ => false

/-- The immediate bytes of format G1 (R64). -/
def GroupImm.bytes : GroupImm → List Byte
  | .byte _ b => [b]
  | .signed b => [b]
  | .word v => wordBytes v

/-- A leading byte that ends in two flags. -/
def lead2 (op : BitVec 6) (x y : Bool) : Byte := op ++ BitVec.ofBool x ++ BitVec.ofBool y

/-- A leading byte that ends in one flag. -/
def lead1 (op : BitVec 7) (y : Bool) : Byte := op ++ BitVec.ofBool y

/-- The leading byte `1011wrrr`. -/
def leadRI (w : Bool) (r : BitVec 3) : Byte := 0b1011#4 ++ BitVec.ofBool w ++ r

/-- Format RM. -/
def encodeRmR (op : BitVec 6) (d w : Bool) (reg : BitVec 3) (rm : RmField) : List Byte :=
  lead2 op d w :: modeByte rm reg :: rm.dispBytes

/-- Format G1. -/
def encodeGroup (sub : BitVec 3) (rm : RmField) (imm : GroupImm) : List Byte :=
  lead2 0b100000#6 imm.s imm.w :: modeByte rm sub :: (rm.dispBytes ++ imm.bytes)

/-- The bytes an instruction CONSUMES, first byte first. -/
def encode : Instr → List Byte
  | .movRmR d w reg rm => encodeRmR 0b100010#6 d w reg rm
  | .movRmImm x rm imm => lead1 0b1100011#7 imm.w :: modeByte rm x :: (rm.dispBytes ++ imm.bytes)
  | .movRImm r imm => leadRI imm.w r :: imm.bytes
  | .movAccMem w a => lead1 0b1010000#7 w :: wordBytes a
  | .movMemAcc w a => lead1 0b1010001#7 w :: wordBytes a
  | .addRmR d w reg rm => encodeRmR 0b000000#6 d w reg rm
  | .subRmR d w reg rm => encodeRmR 0b001010#6 d w reg rm
  | .cmpRmR d w reg rm => encodeRmR 0b001110#6 d w reg rm
  | .addRmImm rm imm => encodeGroup 0b000#3 rm imm
  | .subRmImm rm imm => encodeGroup 0b101#3 rm imm
  | .cmpRmImm rm imm => encodeGroup 0b111#3 rm imm
  | .addAccImm imm => lead1 0b0000010#7 imm.w :: imm.bytes
  | .subAccImm imm => lead1 0b0010110#7 imm.w :: imm.bytes
  | .cmpAccImm imm => lead1 0b0011110#7 imm.w :: imm.bytes
  | .jo inc => [0x70#8, inc]
  | .jno inc => [0x71#8, inc]
  | .jb inc => [0x72#8, inc]
  | .jnb inc => [0x73#8, inc]
  | .je inc => [0x74#8, inc]
  | .jne inc => [0x75#8, inc]
  | .jbe inc => [0x76#8, inc]
  | .jnbe inc => [0x77#8, inc]
  | .js inc => [0x78#8, inc]
  | .jns inc => [0x79#8, inc]
  | .jp inc => [0x7A#8, inc]
  | .jnp inc => [0x7B#8, inc]
  | .jl inc => [0x7C#8, inc]
  | .jnl inc => [0x7D#8, inc]
  | .jle inc => [0x7E#8, inc]
  | .jnle inc => [0x7F#8, inc]
  | .loopnz inc => [0xE0#8, inc]
  | .loopz inc => [0xE1#8, inc]
  | .loop inc => [0xE2#8, inc]
  | .jcxz inc => [0xE3#8, inc]
  | .noop (.leading b0) => [b0]
  | .noop (.group s w _) => [lead2 0b100000#6 s w]

/-- The bytes an instruction looks at beyond those it consumes: the mode byte that an unsupported G1 encoding peeks
(46_noop.md R201). -/
def lookahead : Instr → List Byte
  | .noop (.group _ _ b1) => [b1]
  | _ => []

/-! ### Lengths (30_encoding.md R63 to R65) -/

/-- The number of displacement bytes, `D` of R63. -/
def RmField.dispLen : RmField → Nat
  | .base _ => 0
  | .direct _ => 2
  | .disp8 _ _ => 1
  | .disp16 _ _ => 2
  | .register _ => 0

/-- The number of immediate bytes without `s`, `1 + w` (R64). -/
def ImmField.len : ImmField → Nat
  | .byte _ => 1
  | .word _ => 2

/-- The number of immediate bytes in format G1, `I` of R64. -/
def GroupImm.len : GroupImm → Nat
  | .byte _ _ => 1
  | .signed _ => 1
  | .word _ => 2

/-- Format RM: `2 + D`. -/
def lenRM (rm : RmField) : Nat := 2 + rm.dispLen

/-- Formats AI and RI: `1 + I`, that is `2 + w`. -/
def lenImm (imm : ImmField) : Nat := 1 + imm.len

/-- Format G1: `2 + D + I`. -/
def lenG1 (rm : RmField) (imm : GroupImm) : Nat := 2 + rm.dispLen + imm.len

/-- Format MI: `2 + D + 1 + w`. -/
def lenMI (rm : RmField) (imm : ImmField) : Nat := 2 + rm.dispLen + imm.len

/-- Format AM. -/
def lenAM : Nat := 3

/-- Format J. -/
def lenJ : Nat := 2

/-- Format N. -/
def lenN : Nat := 1

/-- The length `L` of an instruction in bytes (R65). -/
def Instr.length : Instr → Nat
  | .movRmR _ _ _ rm => lenRM rm
  | .movRmImm _ rm imm => lenMI rm imm
  | .movRImm _ imm => lenImm imm
  | .movAccMem _ _ => lenAM
  | .movMemAcc _ _ => lenAM
  | .addRmR _ _ _ rm => lenRM rm
  | .subRmR _ _ _ rm => lenRM rm
  | .cmpRmR _ _ _ rm => lenRM rm
  | .addRmImm rm imm => lenG1 rm imm
  | .subRmImm rm imm => lenG1 rm imm
  | .cmpRmImm rm imm => lenG1 rm imm
  | .addAccImm imm => lenImm imm
  | .subAccImm imm => lenImm imm
  | .cmpAccImm imm => lenImm imm
  | .jo _ => lenJ
  | .jno _ => lenJ
  | .jb _ => lenJ
  | .jnb _ => lenJ
  | .je _ => lenJ
  | .jne _ => lenJ
  | .jbe _ => lenJ
  | .jnbe _ => lenJ
  | .js _ => lenJ
  | .jns _ => lenJ
  | .jp _ => lenJ
  | .jnp _ => lenJ
  | .jl _ => lenJ
  | .jnl _ => lenJ
  | .jle _ => lenJ
  | .jnle _ => lenJ
  | .loopnz _ => lenJ
  | .loopz _ => lenJ
  | .loop _ => lenJ
  | .jcxz _ => lenJ
  | .noop _ => lenN

/-- The number of bytes an instruction looks at: its length, and one more where it peeks (44_arith.md R159). -/
def Instr.reach (i : Instr) : Nat := i.length + (lookahead i).length

/-! ### The opcode table's words -/

/-- The longest instruction (R65). -/
def maxInstrBytes : Nat := 6

/-- The bytes of an instruction whose `nbits` table bits are `w`, in stream order, every later byte 0. The numbering is
that of spec/opcode_table.json: the leading byte is the MOST significant of the `nbits` bits (30_encoding.md R70; the
table's "fixed" entries of a two-byte row put the leading byte at bits 15 to 8). Log entry 7. -/
def tableBytes (nbits w : Nat) : List Byte :=
  let n := (nbits + 7) / 8
  (List.range n).map (fun k => BitVec.ofNat 8 (w >>> (8 * (n - 1 - k)))) ++ List.replicate (maxInstrBytes - n) 0#8

/-- The instruction the decoder reads from those bytes. -/
def decodeTableWord (nbits w : Nat) : Option Instr :=
  match decode (tableBytes nbits w) with
  | .got i _ => some i
  | .stop _ => none

end Sys2Proof
end

