-- ==== Sys2Proof/Machine/Operands.lean ====
section
/-! DEFINITION. The operand builders (41_operand_decoder.md) and the immediates (42_immediate_decoder.md), and the
signed readings of 00_scope.md R10. Each `Location` is built in one expression (70_reset_and_hazards.md R278). -/

namespace Sys2Proof.Machine

/-! ### Signed values (00_scope.md R10) -/

/-- `s8(b)`. -/
def s8 (b : Byte) : Int := if b.toNat < 128 then b.toNat else (b.toNat : Int) - 256

/-- `s16(v)`. -/
def s16 (v : Word) : Int := if v.toNat < 32768 then v.toNat else (v.toNat : Int) - 65536

/-- `u16(x)`: the unsigned reading of the same 16-bit storage. -/
def u16 (v : Word) : Nat := v.toNat

/-- `sext_16(b)` as a bit pattern. -/
def sext16 (b : Byte) : Word :=
  if b.toNat < 128 then BitVec.ofNat 16 b.toNat else BitVec.ofNat 16 (0xFF00 + b.toNat)

/-! ### Registers (41_operand_decoder.md R110, R111) -/

/-- `RegName(r, w)`. -/
def regName (r : BitVec 3) (w : Bool) : Register :=
  match w, r.toNat with
  | false, 0 => .al
  | false, 1 => .cl
  | false, 2 => .dl
  | false, 3 => .bl
  | false, 4 => .ah
  | false, 5 => .ch
  | false, 6 => .dh
  | false, _ => .bh
  | true, 0 => .ax
  | true, 1 => .cx
  | true, 2 => .dx
  | true, 3 => .bx
  | true, 4 => .sp
  | true, 5 => .bp
  | true, 6 => .si
  | true, _ => .di

/-- `RegOperand(r, w)`. -/
def regOperand (r : BitVec 3) (w : Bool) : Location :=
  { isMemAddr := false, register := some (regName r w), addrCalc := none, displacement := none }

/-- The accumulator: AL or AX (R111). -/
def accumulator (w : Bool) : Location := regOperand 0b000#3 w

/-! ### The r/m operand (41_operand_decoder.md R112 to R118) -/

/-- `EaPair(rm)`, the base and the optional index (R118). -/
def eaPair (rm : BitVec 3) : Register × Option Register :=
  match rm.toNat with
  | 0 => (.bx, some .si)
  | 1 => (.bx, some .di)
  | 2 => (.bp, some .si)
  | 3 => (.bp, some .di)
  | 4 => (.si, none)
  | 5 => (.di, none)
  | 6 => (.bp, none)
  | _ => (.bx, none)

/-- A memory operand with a base (R115 to R117). -/
def memOperand (rm : BitVec 3) (displacement : Option Word) : Location :=
  { isMemAddr := true, register := some (eaPair rm).1, addrCalc := (eaPair rm).2, displacement := displacement }

/-- A direct address: the shape of R114, and `DirectOperand()` of R121. -/
def directOperand (addr : Word) : Location :=
  { isMemAddr := true, register := none, addrCalc := none, displacement := some addr }

/-- `RmOperand(mod, rm, w)`; `w` is used only with mod = 11 (R112). -/
def rmOperand (rm : RmField) (w : Bool) : Location :=
  match rm with
  | .base rm => memOperand rm none
  | .direct a => directOperand a
  | .disp8 rm d => memOperand rm (some (sext16 d))
  | .disp16 rm d => memOperand rm (some d)
  | .register rm => regOperand rm w

/-! ### Immediates (42_immediate_decoder.md R130 to R132) -/

/-- `Imm(w, 0)`: the tag follows `w`. -/
def immValue : ImmField → Immediate
  | .byte b => .byte b
  | .word v => .word v

/-- `Imm(w, s)` of format G1: with `w = 1, s = 1` the one byte is sign-extended and tagged as a word. -/
def groupImmValue : GroupImm → Immediate
  | .byte _ b => .byte b
  | .signed b => .word (sext16 b)
  | .word v => .word v

/-- `Rel8()` (R133): the increment is the raw signed byte. -/
def rel8 (inc : Byte) : Byte := inc

end Sys2Proof.Machine
end

