-- ==== Sys2Proof/Config.lean ====
section
/-! DEFINITION. What the host fixes for a run, and the two values the spec leaves to it at reset. The spec leaves no
result open (70_reset_and_hazards.md R272: every byte string has a defined result), so there is no free value here. -/

namespace Sys2Proof

/-- The values of POLICY (00_scope.md R6), the block's one control register (10_state.md R26). -/
inductive Policy where
  | lenientSkipOneByte
  | strictFail
  deriving DecidableEq, Repr

/-- POLICY in the reset state. The spec gives none, the host supplies it (10_state.md R26, R34). DESIGN CHOICE: the
source's "current policy", the lenient one (46_noop.md R202). Log entry 2; unsafe for a claim that rests on it. -/
def Config.resetPolicy : Policy := .lenientSkipOneByte

/-- What an offset below N that the cell list does not name reads as. DESIGN CHOICE of representation only: the host
supplies every byte of the buffer (00_scope.md R5), and every buffer has exactly one such list. Log entry 1. -/
def Config.unlistedByte : Byte := 0#8

end Sys2Proof
end

