-- ==== Sys2Proof/Machine/State.lean ====
section
/-! DEFINITION. The state of a run (10_state.md R20 to R26) with the parameters that the host supplies (00_scope.md R5,
R6), as plain data, and the state after reset (10_state.md R34; 70_reset_and_hazards.md R270). -/

namespace Sys2Proof.Machine

/-- The errors a run can end with (60_exceptions.md R240; 40_dispatch.md R95). -/
inductive DecodeError where
  /-- The encoding demanded more bytes than remained (R241). -/
  | truncatedInstruction (offset : Nat)
  /-- An unsupported encoding, under strict_fail only (R242). -/
  | unsupportedEncoding (offset : Nat)
  deriving DecidableEq, Repr

/-- The one status register (10_state.md R25). -/
inductive Status where
  | running
  | done
  | fault (e : DecodeError)
  deriving DecidableEq, Repr

/-- The bytes of the buffer as cells in canonical form: offsets strictly rising, no cell holding the byte that an
unlisted offset reads as (`Config.unlistedByte`). Machine/Ops.lean reads and writes it. -/
abbrev Memory := List Host.Cell

/-- Everything the spec gives the machine. -/
structure State where
  /-- `buf`, the machine code (00_scope.md R5, 20_memory.md R40). -/
  buf : Memory
  /-- `N`, the number of bytes of `buf`. -/
  bufLen : Nat
  /-- `POLICY` (10_state.md R26). -/
  policy : Policy
  /-- The cursor, the block's program counter (10_state.md R22). -/
  pos : Nat
  /-- The latch of the leading byte's offset (10_state.md R23). -/
  start : Nat
  /-- The instruction values emitted so far (10_state.md R24). -/
  out : List Instruction
  /-- Running, Done or Fault (10_state.md R25). -/
  status : Status
  deriving DecidableEq, Repr

/-- Why a step stops the machine. Both are raised by `step` alone, in a state whose run is over: "no step is enabled"
(10_state.md R25). They are safe: nothing happens in such a state in the spec either. An error of the spec is no stop
of this kind, it is a next state whose `status` is `fault`. -/
inductive Fault where
  /-- `status` is Done. Raised by `step`; safe. -/
  | finished
  /-- `status` is Fault(e). Raised by `step`; safe. -/
  | aborted (e : DecodeError)
  deriving DecidableEq, Repr

/-- What has no meaning. -/
inductive Refusal where
  /-- An instruction without a meaning; raised by an arm of `exec`, safe. No arm of this model raises it. -/
  | notModelled (mnemonic : String)
  /-- `InvalidDirectAddressing` (60_exceptions.md R243): raised by the formatter on a hand-built `Location` that breaks
  the invariant (47_formatter.md R225), never by a step; safe. -/
  | invalidDirectAddressing
  deriving DecidableEq, Repr

/-- The state after reset (10_state.md R34). The host supplies `buf`, `N` and `POLICY`; here they are the empty buffer
(log entry 1) and `Config.resetPolicy` (log entry 2). -/
def State.reset : State where
  buf := []
  bufLen := 0
  policy := Config.resetPolicy
  pos := 0
  start := 0
  out := []
  status := .running

end Sys2Proof.Machine
end

