-- ==== Sys2Proof/Machine/Ops.lean ====
section
/-! DEFINITION. The named operations: the buffer's cells, the cursor, the latch, `Emit`, `raise`, and the two ways an
instruction ends (completing, or raising an error). Raising is the block's exception entry and there is no return from
it (60_exceptions.md R245, R247), so no return stands beside it. -/

namespace Sys2Proof.Machine

/-- What a meaning and a step answer. -/
abbrev Result := Host.Outcome State Fault Refusal

/-! ### The cells of the buffer -/

/-- The byte at an offset. -/
def Memory.read : Memory → Nat → Byte
  | [], _ => Config.unlistedByte
  | (a, b) :: m, k => if a = k then b else Memory.read m k

/-- A cell in front, unless it holds the byte that an unlisted offset reads as. -/
def Memory.consCell (a : Nat) (b : Byte) (m : Memory) : Memory :=
  if b = Config.unlistedByte then m else (a, b) :: m

/-- The HOST places a byte (70_reset_and_hazards.md R272); the block itself never writes (20_memory.md R47). -/
def Memory.write : Memory → Nat → Byte → Memory
  | [], k, v => Memory.consCell k v []
  | (a, b) :: m, k, v =>
    if k < a then Memory.consCell k v ((a, b) :: m)
    else if k = a then Memory.consCell k v m
    else (a, b) :: Memory.write m k v

/-- The canonical form: offsets strictly rising, no cell holding the unlisted byte. -/
def Memory.wf : Memory → Bool
  | [] => true
  | (a, b) :: m => (b != Config.unlistedByte) && m.all (fun c => a < c.1) && Memory.wf m

/-- The host places a run of bytes from an offset on. -/
def Memory.store : Memory → Nat → List Byte → Memory
  | m, _, [] => m
  | m, k, b :: bs => Memory.store (Memory.write m k b) (k + 1) bs

/-! ### Reading the buffer -/

/-- `buf[addr]`, which exists exactly for `addr < N` (20_memory.md R40). -/
def State.readByte (s : State) (addr : Nat) : Option Byte :=
  if addr < s.bufLen then some (Memory.read s.buf addr) else none

/-- `Next()` on the state (20_memory.md R41): the byte at `pos`, and the cursor one further; `none` is end of stream. -/
def State.nextByte (s : State) : Option (Byte × State) :=
  match s.readByte s.pos with
  | some b => some (b, { s with pos := s.pos + 1 })
  | none => none

/-- The bytes that up to `k` calls of `Next()` yield. -/
def State.upcoming : Nat → State → Cursor
  | 0, _ => []
  | k + 1, s =>
    match s.nextByte with
    | some (b, s') => b :: State.upcoming k s'
    | none => []

/-- The bytes an instruction at `pos` can consist of: no instruction has more than six (30_encoding.md R65). -/
def State.window (s : State) : Cursor := State.upcoming maxInstrBytes s

/-- The same bytes for an instruction that begins at another offset. -/
def State.windowAt (s : State) (offset : Nat) : Cursor := State.window { s with pos := offset }

/-! ### The pieces of a step -/

/-- `start <- pos` (10_state.md R23). -/
def State.latch (s : State) : State := { s with start := s.pos }

/-- `n` calls of `Next()` that find their byte (10_state.md R22). -/
def State.advance (s : State) (n : Nat) : State := { s with pos := s.pos + n }

/-- The calls of `Next()` up to the end of the buffer: where the cursor stands when `Next()` or `Peek()` finds no
byte. -/
def State.exhaust (s : State) : State := { s with pos := s.pos + (s.bufLen - s.pos) }

/-- `Emit(i)` (40_dispatch.md R93). -/
def State.emit (s : State) (v : Instruction) : State := { s with out := s.out ++ [v] }

/-- `raise E(info)` (60_exceptions.md R245): the status, and nothing else. -/
def State.raise (s : State) (e : DecodeError) : State := { s with status := .fault e }

/-- `status <- Done` (40_dispatch.md R91). The latch is loaded first, as R91's pseudocode says; log entry 4. -/
def State.finish (s : State) : State := { s.latch with status := .done }

/-- A step that runs out of bytes: `TruncatedInstruction(start)` (60_exceptions.md R241). The cursor is left as the
pseudocode leaves it (R246); log entry 6. -/
def State.truncate (s : State) : State :=
  s.latch.exhaust.raise (.truncatedInstruction s.pos)

/-- A decode that consumes `len` bytes and emits `v`. -/
def State.emitted (s : State) (len : Nat) (v : Instruction) : State :=
  (s.latch.advance len).emit v

/-- The shared end of every supported instruction: it needs `len` bytes from `pos` on; with them it completes, without
them it raises `TruncatedInstruction` (60_exceptions.md R241). -/
def perform (len : Nat) (v : Instruction) (s : State) : Result :=
  if s.pos + len ≤ s.bufLen then .next (s.emitted len v) else .next s.truncate

/-- `Unsupported()` (46_noop.md R202), the one place that reads `POLICY`; only the leading byte is consumed. -/
def unsupported (s : State) : Result :=
  match s.policy with
  | .strictFail => .next ((s.latch.advance lenN).raise (.unsupportedEncoding s.pos))
  | .lenientSkipOneByte => .next (s.emitted lenN .noop)

/-! ### The host's start of a run -/

/-- Reset with the host's buffer and policy (70_reset_and_hazards.md R270, R272). -/
def State.load (bytes : List Byte) (policy : Policy) : State :=
  { State.reset with buf := Memory.store [] 0 bytes, bufLen := bytes.length, policy := policy }

/-- The host's placing of bytes at `pos` in a running state, the buffer long enough to hold them. -/
def State.place (s : State) (bytes : List Byte) : State :=
  { s with
    buf := Memory.store s.buf s.pos bytes
    bufLen := max s.bufLen (s.pos + bytes.length)
    status := .running }

end Sys2Proof.Machine
end

