-- ==== Sys2Proof/Machine/Formats.lean ====
section
/-! DEFINITION. What the instructions of one format share: the operands they build and the length they consume
(30_encoding.md R61, R65). The meanings of the four families are one line each over these. -/

namespace Sys2Proof.Machine

/-- Format RM: `DecodeMovRm` of 43_mov.md R140 and `DecodeArithRm` of 44_arith.md R150 to R152. -/
def performRmR (op : Location → Location → Instruction) (d w : Bool) (reg : BitVec 3) (rm : RmField) (s : State) :
    Result :=
  perform (lenRM rm) (directed d op (regOperand reg w) (rmOperand rm w)) s

/-- Format G1 with a supported sub-field: `DecodeArithRmImm` of 44_arith.md R159. -/
def performGroup (op : Immediate → Location → Instruction) (rm : RmField) (imm : GroupImm) (s : State) : Result :=
  perform (lenG1 rm imm) (op (groupImmValue imm) (rmOperand rm imm.w)) s

/-- Format AI: `DecodeArithAccImm` of 44_arith.md R156 to R158. -/
def performAccImm (op : Immediate → Location → Instruction) (imm : ImmField) (s : State) : Result :=
  perform (lenImm imm) (op (immValue imm) (accumulator imm.w)) s

/-- Format J: `DecodeJump` of 45_jumps.md R170; the increment does not move the cursor. -/
def performJump (op : Byte → Instruction) (inc : Byte) (s : State) : Result :=
  perform lenJ (op (rel8 inc)) s

end Sys2Proof.Machine
end

