-- ==== Sys2Proof/Machine/Arith.lean ====
section
/-! DEFINITION. The add, sub and cmp family (44_arith.md): nine encodings. Nothing is computed and no flag is written. -/

namespace Sys2Proof.Machine

/-- `000000dw` (R150). -/
def execAddRmR (d w : Bool) (reg : BitVec 3) (rm : RmField) (s : State) : Result :=
  performRmR .add d w reg rm s

/-- `001010dw` (R151). -/
def execSubRmR (d w : Bool) (reg : BitVec 3) (rm : RmField) (s : State) : Result :=
  performRmR .sub d w reg rm s

/-- `001110dw` (R152). -/
def execCmpRmR (d w : Bool) (reg : BitVec 3) (rm : RmField) (s : State) : Result :=
  performRmR .cmp d w reg rm s

/-- `100000sw`, sub-field 000 (R153). -/
def execAddRmImm (rm : RmField) (imm : GroupImm) (s : State) : Result :=
  performGroup .addImmediate rm imm s

/-- `100000sw`, sub-field 101 (R154). -/
def execSubRmImm (rm : RmField) (imm : GroupImm) (s : State) : Result :=
  performGroup .subImmediate rm imm s

/-- `100000sw`, sub-field 111 (R155). -/
def execCmpRmImm (rm : RmField) (imm : GroupImm) (s : State) : Result :=
  performGroup .cmpImmediate rm imm s

/-- `0000010w` (R156). -/
def execAddAccImm (imm : ImmField) (s : State) : Result :=
  performAccImm .addImmediate imm s

/-- `0010110w` (R157). -/
def execSubAccImm (imm : ImmField) (s : State) : Result :=
  performAccImm .subImmediate imm s

/-- `0011110w` (R158). -/
def execCmpAccImm (imm : ImmField) (s : State) : Result :=
  performAccImm .cmpImmediate imm s

end Sys2Proof.Machine
end

