-- ==== Sys2Proof/Machine/Jumps.lean ====
section
/-! DEFINITION. The conditional-jump and loop family (45_jumps.md): twenty encodings. No target is formed, no condition
evaluated, and the cursor moves past the two bytes whatever the increment is (R170). -/

namespace Sys2Proof.Machine

/-- 0x70 (R171). -/
def execJo (inc : Byte) (s : State) : Result :=
  performJump .jo inc s

/-- 0x71 (R172). -/
def execJno (inc : Byte) (s : State) : Result :=
  performJump .jno inc s

/-- 0x72 (R173). -/
def execJb (inc : Byte) (s : State) : Result :=
  performJump .jb inc s

/-- 0x73 (R174). -/
def execJnb (inc : Byte) (s : State) : Result :=
  performJump .jnb inc s

/-- 0x74 (R175). -/
def execJe (inc : Byte) (s : State) : Result :=
  performJump .je inc s

/-- 0x75 (R176). -/
def execJne (inc : Byte) (s : State) : Result :=
  performJump .jne inc s

/-- 0x76 (R177). -/
def execJbe (inc : Byte) (s : State) : Result :=
  performJump .jbe inc s

/-- 0x77 (R178). -/
def execJnbe (inc : Byte) (s : State) : Result :=
  performJump .jnbe inc s

/-- 0x78 (R179). -/
def execJs (inc : Byte) (s : State) : Result :=
  performJump .js inc s

/-- 0x79 (R180). -/
def execJns (inc : Byte) (s : State) : Result :=
  performJump .jns inc s

/-- 0x7A (R181). -/
def execJp (inc : Byte) (s : State) : Result :=
  performJump .jp inc s

/-- 0x7B (R182). -/
def execJnp (inc : Byte) (s : State) : Result :=
  performJump .jnp inc s

/-- 0x7C (R183). -/
def execJl (inc : Byte) (s : State) : Result :=
  performJump .jl inc s

/-- 0x7D (R184). -/
def execJnl (inc : Byte) (s : State) : Result :=
  performJump .jnl inc s

/-- 0x7E (R185). -/
def execJle (inc : Byte) (s : State) : Result :=
  performJump .jle inc s

/-- 0x7F (R186). -/
def execJnle (inc : Byte) (s : State) : Result :=
  performJump .jnle inc s

/-- 0xE0 (R187). -/
def execLoopnz (inc : Byte) (s : State) : Result :=
  performJump .loopnz inc s

/-- 0xE1 (R188). -/
def execLoopz (inc : Byte) (s : State) : Result :=
  performJump .loopz inc s

/-- 0xE2 (R189). -/
def execLoop (inc : Byte) (s : State) : Result :=
  performJump .loop inc s

/-- 0xE3 (R190). -/
def execJcxz (inc : Byte) (s : State) : Result :=
  performJump .jcxz inc s

end Sys2Proof.Machine
end

