-- ==== Sys2Proof/Machine/Mov.lean ====
section
/-! DEFINITION. The mov family (43_mov.md): five encodings, two variants (R145). -/

namespace Sys2Proof.Machine

/-- `100010dw` (R140). -/
def execMovRmR (d w : Bool) (reg : BitVec 3) (rm : RmField) (s : State) : Result :=
  performRmR .mov d w reg rm s

/-- `1100011w` (R141); the reg field `x` is not examined. -/
def execMovRmImm (_x : BitVec 3) (rm : RmField) (imm : ImmField) (s : State) : Result :=
  perform (lenMI rm imm) (.movImmediate (immValue imm) (rmOperand rm imm.w)) s

/-- `1011wrrr` (R142). -/
def execMovRImm (r : BitVec 3) (imm : ImmField) (s : State) : Result :=
  perform (lenImm imm) (.movImmediate (immValue imm) (regOperand r imm.w)) s

/-- `1010000w` (R143): memory to accumulator. -/
def execMovAccMem (w : Bool) (addr : Word) (s : State) : Result :=
  perform lenAM (.mov (directOperand addr) (accumulator w)) s

/-- `1010001w` (R144): accumulator to memory. -/
def execMovMemAcc (w : Bool) (addr : Word) (s : State) : Result :=
  perform lenAM (.mov (accumulator w) (directOperand addr)) s

end Sys2Proof.Machine
end

