-- ==== Sys2Proof/Machine/Noop.lean ====
section
/-! DEFINITION. Unsupported encodings (46_noop.md). Under strict_fail the meaning TAKES the error: a next state whose
status is the fault (60_exceptions.md R245). -/

namespace Sys2Proof.Machine

/-- `Unsupported()`, reached from the dispatcher's last arm (R200) or from format G1 after `Peek()` (R201). One byte is
consumed; the second form also looks at the mode byte, and without one `Peek()` raises `TruncatedInstruction`. The value
`Noop` records nothing of the cause (R203). -/
def execNoop (cause : NoopCause) (s : State) : Result :=
  if s.pos + Instr.reach (.noop cause) ≤ s.bufLen then unsupported s else .next s.truncate

end Sys2Proof.Machine
end

