-- ==== Sys2Proof/Machine/Dispatch.lean ====
section
/-! DEFINITION. One arm per constructor of `Instr`: its meaning. -/

namespace Sys2Proof.Machine

def exec (i : Instr) (s : State) : Host.Outcome State Fault Refusal :=
  match i with
  | .movRmR d w reg rm => Sys2Proof.Machine.execMovRmR d w reg rm s
  | .movRmImm x rm imm => Sys2Proof.Machine.execMovRmImm x rm imm s
  | .movRImm r imm => Sys2Proof.Machine.execMovRImm r imm s
  | .movAccMem w addr => Sys2Proof.Machine.execMovAccMem w addr s
  | .movMemAcc w addr => Sys2Proof.Machine.execMovMemAcc w addr s
  | .addRmR d w reg rm => Sys2Proof.Machine.execAddRmR d w reg rm s
  | .subRmR d w reg rm => Sys2Proof.Machine.execSubRmR d w reg rm s
  | .cmpRmR d w reg rm => Sys2Proof.Machine.execCmpRmR d w reg rm s
  | .addRmImm rm imm => Sys2Proof.Machine.execAddRmImm rm imm s
  | .subRmImm rm imm => Sys2Proof.Machine.execSubRmImm rm imm s
  | .cmpRmImm rm imm => Sys2Proof.Machine.execCmpRmImm rm imm s
  | .addAccImm imm => Sys2Proof.Machine.execAddAccImm imm s
  | .subAccImm imm => Sys2Proof.Machine.execSubAccImm imm s
  | .cmpAccImm imm => Sys2Proof.Machine.execCmpAccImm imm s
  | .jo inc => Sys2Proof.Machine.execJo inc s
  | .jno inc => Sys2Proof.Machine.execJno inc s
  | .jb inc => Sys2Proof.Machine.execJb inc s
  | .jnb inc => Sys2Proof.Machine.execJnb inc s
  | .je inc => Sys2Proof.Machine.execJe inc s
  | .jne inc => Sys2Proof.Machine.execJne inc s
  | .jbe inc => Sys2Proof.Machine.execJbe inc s
  | .jnbe inc => Sys2Proof.Machine.execJnbe inc s
  | .js inc => Sys2Proof.Machine.execJs inc s
  | .jns inc => Sys2Proof.Machine.execJns inc s
  | .jp inc => Sys2Proof.Machine.execJp inc s
  | .jnp inc => Sys2Proof.Machine.execJnp inc s
  | .jl inc => Sys2Proof.Machine.execJl inc s
  | .jnl inc => Sys2Proof.Machine.execJnl inc s
  | .jle inc => Sys2Proof.Machine.execJle inc s
  | .jnle inc => Sys2Proof.Machine.execJnle inc s
  | .loopnz inc => Sys2Proof.Machine.execLoopnz inc s
  | .loopz inc => Sys2Proof.Machine.execLoopz inc s
  | .loop inc => Sys2Proof.Machine.execLoop inc s
  | .jcxz inc => Sys2Proof.Machine.execJcxz inc s
  | .noop cause => Sys2Proof.Machine.execNoop cause s

end Sys2Proof.Machine
end

