-- ==== Sys2Proof/Machine/Fetch.lean ====
section
/-! DEFINITION. What a step finds at `pos`: the status, the end of the stream, and the decoder's answer on the bytes
that stand there (40_dispatch.md R91). -/

namespace Sys2Proof.Machine

/-- The cases of R91. -/
inductive Fetched where
  /-- The run is over: no step is enabled (10_state.md R25). -/
  | over (r : Fault)
  /-- The end of the stream at an instruction boundary (20_memory.md R43). -/
  | atEnd
  /-- A byte is missing (20_memory.md R41). -/
  | cut
  /-- An instruction, supported or not. -/
  | run (i : Instr)
  deriving DecidableEq, Repr

/-- The head of `Step()` (40_dispatch.md R91), up to the instruction's own rule. -/
def fetch (s : State) : Fetched :=
  match s.status with
  | .done => .over .finished
  | .fault e => .over (.aborted e)
  | .running =>
    if s.pos = s.bufLen then .atEnd
    else match decode s.window with
      | .got i _ => .run i
      | .stop _ => .cut

end Sys2Proof.Machine
end

