-- ==== Sys2Proof/Machine/Step.lean ====
section
/-! DEFINITION. The step (40_dispatch.md R91), atomic and deterministic. -/

namespace Sys2Proof.Machine

/-- `Step()`: fetch, then the instruction's meaning; the end of the stream sets Done, a missing byte raises
`TruncatedInstruction(start)`, and in a state whose run is over no step is enabled. -/
def step (s : State) : Host.Outcome State Fault Refusal :=
  match fetch s with
  | .over r => .fault r
  | .atEnd => .next s.finish
  | .cut => .next s.truncate
  | .run i => exec i s

/-- `s` with the instruction whose table bits are `w` standing at `pos`, in a running state whose buffer is long enough
for the longest instruction. It stands for the host's placing of the code (70_reset_and_hazards.md R272): log entry 3. -/
def State.withFetchWord (s : State) (nbits w : Nat) : State :=
  s.place (tableBytes nbits w)

end Sys2Proof.Machine
end

