-- ==== Sys2Proof/Machine/Run.lean ====
section
/-! DEFINITION. The run and the block's primary operation (40_dispatch.md R90, R95). -/

namespace Sys2Proof.Machine

/-- What the host receives at the end of a run (R95): `Ok(out)` or `Err(e)`; nothing while it runs. After an error the
partial `out` is no part of it (60_exceptions.md R245). -/
def State.result (s : State) : Option (Except DecodeError (List Instruction)) :=
  match s.status with
  | .running => none
  | .done => some (.ok s.out)
  | .fault e => some (.error e)

/-- At most `k` steps, fewer if the run ends (R90). -/
def runSteps : Nat → State → State
  | 0, s => s
  | k + 1, s =>
    match step s with
    | .next s' => runSteps k s'
    | .fault _ => s
    | .refused _ => s

/-- `Run(buf, POLICY)` from the reset state, with the number of steps that R94 allows: `N + 1`. -/
def runBuffer (bytes : List Byte) (policy : Policy) : State :=
  runSteps (bytes.length + 1) (State.load bytes policy)

/-- `decode(bytes) -> Result<Sequence<Instruction>, DecodeError>` (R95). -/
def decodeBuffer (bytes : List Byte) (policy : Policy) : Option (Except DecodeError (List Instruction)) :=
  (runBuffer bytes policy).result

end Sys2Proof.Machine
end

