-- ==== Sys2Proof/Machine/Formatter.lean ====
section
/-! DEFINITION. The InstructionFormatter (47_formatter.md): one line of text per value. A text is the list of its
characters. It reads no state of a run; a `Location` that breaks the invariant is refused by name (R225), never given a
text. NOOP_TEXT is an argument (00_scope.md R7). -/

namespace Sys2Proof.Machine

/-- A line of text, without a newline (R210). -/
abbrev Text := List Char

/-- What the formatter answers. -/
abbrev Formatted := Except Refusal Text

/-- The default of NOOP_TEXT (R221). -/
def defaultNoopText : Text := "noop".toList

/-- `Dec(v)` (R222): the digits of the absolute value in base ten, after `-` when negative. -/
def decText (v : Int) : Text :=
  if v < 0 then '-' :: Nat.toDigits 10 v.natAbs else Nat.toDigits 10 v.natAbs

/-- The lower-case name of a register (R211). -/
def regText : Register → Text
  | .al => "al".toList
  | .cl => "cl".toList
  | .dl => "dl".toList
  | .bl => "bl".toList
  | .ah => "ah".toList
  | .ch => "ch".toList
  | .dh => "dh".toList
  | .bh => "bh".toList
  | .ax => "ax".toList
  | .cx => "cx".toList
  | .dx => "dx".toList
  | .bx => "bx".toList
  | .sp => "sp".toList
  | .bp => "bp".toList
  | .si => "si".toList
  | .di => "di".toList

/-- The index of a based operand: ` + ` and the name (R213). -/
def indexText : Option Register → Text
  | none => []
  | some i => " + ".toList ++ regText i

/-- `DispTerm(d)` (R214): nothing for an absent or zero displacement, else the sign and the absolute value. -/
def dispTerm : Option Word → Text
  | none => []
  | some d =>
    if s16 d = 0 then []
    else if 0 < s16 d then " + ".toList ++ decText (s16 d)
    else " - ".toList ++ decText (-(s16 d))

/-- `Loc(l)` (R212, R213, R215, R225). -/
def locText (l : Location) : Formatted :=
  match l.register, l.isMemAddr, l.displacement with
  | some r, false, _ => .ok (regText r)
  | some b, true, d => .ok ("[".toList ++ regText b ++ indexText l.addrCalc ++ dispTerm d ++ "]".toList)
  | none, true, some a => .ok ("[".toList ++ decText (u16 a) ++ "]".toList)
  | none, true, none => .error .invalidDirectAddressing
  | none, false, _ => .error .invalidDirectAddressing

/-- The signed value of an immediate (10_state.md R29). -/
def Immediate.value : Immediate → Int
  | .byte v => s8 v
  | .word v => s16 v

/-- The size prefix by the tag (R216). -/
def Immediate.prefixText : Immediate → Text
  | .byte _ => "byte ".toList
  | .word _ => "word ".toList

/-- `ImmText(data, dest)` (R216). -/
def immText (data : Immediate) (dest : Location) : Text :=
  (if dest.isMemAddr then data.prefixText else []) ++ decText data.value

/-- `Mn(i)` (R220); a Noop has no mnemonic beside NOOP_TEXT. -/
def mnemonic : Instruction → Text
  | .mov _ _ => "mov".toList
  | .add _ _ => "add".toList
  | .sub _ _ => "sub".toList
  | .cmp _ _ => "cmp".toList
  | .movImmediate _ _ => "mov".toList
  | .addImmediate _ _ => "add".toList
  | .subImmediate _ _ => "sub".toList
  | .cmpImmediate _ _ => "cmp".toList
  | .je _ => "je".toList
  | .jl _ => "jl".toList
  | .jle _ => "jle".toList
  | .jb _ => "jb".toList
  | .jbe _ => "jbe".toList
  | .jp _ => "jp".toList
  | .jo _ => "jo".toList
  | .js _ => "js".toList
  | .jne _ => "jne".toList
  | .jnl _ => "jnl".toList
  | .jnle _ => "jnle".toList
  | .jnb _ => "jnb".toList
  | .jnbe _ => "jnbe".toList
  | .jnp _ => "jnp".toList
  | .jno _ => "jno".toList
  | .jns _ => "jns".toList
  | .loop _ => "loop".toList
  | .loopz _ => "loopz".toList
  | .loopnz _ => "loopnz".toList
  | .jcxz _ => "jcxz".toList
  | .noop => []

/-- A line with two operands, destination first (R217, R218). -/
def twoOperandLine (mn : Text) (dest : Formatted) (second : Formatted) : Formatted := do
  let d ← dest
  let x ← second
  .ok (mn ++ " ".toList ++ d ++ ", ".toList ++ x)

/-- A jump's line (R219). -/
def jumpLine (mn : Text) (inc : Byte) : Formatted :=
  .ok (mn ++ " ".toList ++ decText (s8 inc))

/-- `Format(i)` (R210). -/
def formatLine (noopText : Text) (i : Instruction) : Formatted :=
  match i with
  | .mov src dest => twoOperandLine (mnemonic i) (locText dest) (locText src)
  | .add src dest => twoOperandLine (mnemonic i) (locText dest) (locText src)
  | .sub src dest => twoOperandLine (mnemonic i) (locText dest) (locText src)
  | .cmp src dest => twoOperandLine (mnemonic i) (locText dest) (locText src)
  | .movImmediate data dest => twoOperandLine (mnemonic i) (locText dest) (.ok (immText data dest))
  | .addImmediate data dest => twoOperandLine (mnemonic i) (locText dest) (.ok (immText data dest))
  | .subImmediate data dest => twoOperandLine (mnemonic i) (locText dest) (.ok (immText data dest))
  | .cmpImmediate data dest => twoOperandLine (mnemonic i) (locText dest) (.ok (immText data dest))
  | .je increment => jumpLine (mnemonic i) increment
  | .jl increment => jumpLine (mnemonic i) increment
  | .jle increment => jumpLine (mnemonic i) increment
  | .jb increment => jumpLine (mnemonic i) increment
  | .jbe increment => jumpLine (mnemonic i) increment
  | .jp increment => jumpLine (mnemonic i) increment
  | .jo increment => jumpLine (mnemonic i) increment
  | .js increment => jumpLine (mnemonic i) increment
  | .jne increment => jumpLine (mnemonic i) increment
  | .jnl increment => jumpLine (mnemonic i) increment
  | .jnle increment => jumpLine (mnemonic i) increment
  | .jnb increment => jumpLine (mnemonic i) increment
  | .jnbe increment => jumpLine (mnemonic i) increment
  | .jnp increment => jumpLine (mnemonic i) increment
  | .jno increment => jumpLine (mnemonic i) increment
  | .jns increment => jumpLine (mnemonic i) increment
  | .loop increment => jumpLine (mnemonic i) increment
  | .loopz increment => jumpLine (mnemonic i) increment
  | .loopnz increment => jumpLine (mnemonic i) increment
  | .jcxz increment => jumpLine (mnemonic i) increment
  | .noop => .ok noopText

/-- `format(instructions)` (40_dispatch.md R96): one line per value, in order. -/
def formatAll (noopText : Text) : List Instruction → Except Refusal (List Text)
  | [] => .ok []
  | i :: is => do
    let line ← formatLine noopText i
    let lines ← formatAll noopText is
    .ok (line :: lines)

end Sys2Proof.Machine
end

