-- ==== Sys2Proof/Safety.lean ====
section
/-! DEFINITION. The terms in which claims are stated: the shapes of the values, the invariant of a run, what a sequence
of instructions at consecutive offsets is, and a clear one-pass description of a whole decode. -/

namespace Sys2Proof.Machine

/-! ### Values (10_state.md R28, R29; 41_operand_decoder.md R120, R122; 43_mov.md R145) -/

/-- The byte set of register names (10_state.md R27). -/
def Register.isByte (r : Register) : Bool :=
  r ∈ [Register.al, .cl, .dl, .bl, .ah, .ch, .dh, .bh]

/-- The first shape of R28: a register operand. -/
def Location.isRegisterShape (l : Location) : Bool :=
  !l.isMemAddr && l.register.isSome && l.addrCalc.isNone && l.displacement.isNone

/-- The second shape: memory, base only. -/
def Location.isBaseShape (l : Location) : Bool :=
  l.isMemAddr && l.register ∈ [some Register.si, some .di, some .bp, some .bx] && l.addrCalc.isNone

/-- The third shape: memory, base and index. -/
def Location.isIndexedShape (l : Location) : Bool :=
  l.isMemAddr && l.register ∈ [some Register.bx, some .bp] && l.addrCalc ∈ [some Register.si, some .di]

/-- The fourth shape: memory, direct address. -/
def Location.isDirectShape (l : Location) : Bool :=
  l.isMemAddr && l.register.isNone && l.addrCalc.isNone && l.displacement.isSome

/-- One of the four shapes of R28. -/
def Location.wellShaped (l : Location) : Bool :=
  l.isRegisterShape || l.isBaseShape || l.isIndexedShape || l.isDirectShape

/-- The source's invariant (R28): without a register the operand is a memory operand with a displacement. The formatter
is total on exactly these (47_formatter.md R225). -/
def Location.invariant (l : Location) : Bool :=
  l.register.isSome || (l.isMemAddr && l.displacement.isSome)

/-- A register operand of the byte or word set that `w` selects; a memory operand carries no width (R120). -/
def Location.hasWidth (l : Location) (w : Bool) : Bool :=
  l.isMemAddr || (match l.register with
    | some r => r.isByte == !w
    | none => true)

/-- The width that an immediate's tag names (R29). -/
def Immediate.width : Immediate → Bool
  | .byte _ => false
  | .word _ => true

/-- A pair of operands as the decoder builds it: both well shaped, not both memory (R145), one width (R120). -/
def pairSound (src dest : Location) : Bool :=
  src.wellShaped && dest.wellShaped && !(src.isMemAddr && dest.isMemAddr) &&
    ((src.hasWidth false && dest.hasWidth false) || (src.hasWidth true && dest.hasWidth true))

/-- An immediate and its destination: well shaped, the tag being the width of a register destination (R29). -/
def immSound (data : Immediate) (dest : Location) : Bool :=
  dest.wellShaped && dest.hasWidth data.width

/-- A value of the form the decoder builds. -/
def Instruction.sound : Instruction → Bool
  | .mov src dest => pairSound src dest
  | .add src dest => pairSound src dest
  | .sub src dest => pairSound src dest
  | .cmp src dest => pairSound src dest
  | .movImmediate data dest => immSound data dest
  | .addImmediate data dest => immSound data dest
  | .subImmediate data dest => immSound data dest
  | .cmpImmediate data dest => immSound data dest
  | .je _ => true
  | .jl _ => true
  | .jle _ => true
  | .jb _ => true
  | .jbe _ => true
  | .jp _ => true
  | .jo _ => true
  | .js _ => true
  | .jne _ => true
  | .jnl _ => true
  | .jnle _ => true
  | .jnb _ => true
  | .jnbe _ => true
  | .jnp _ => true
  | .jno _ => true
  | .jns _ => true
  | .loop _ => true
  | .loopz _ => true
  | .loopnz _ => true
  | .jcxz _ => true
  | .noop => true

/-- The locations inside a value. -/
def Instruction.locations : Instruction → List Location
  | .mov src dest => [src, dest]
  | .add src dest => [src, dest]
  | .sub src dest => [src, dest]
  | .cmp src dest => [src, dest]
  | .movImmediate _ dest => [dest]
  | .addImmediate _ dest => [dest]
  | .subImmediate _ dest => [dest]
  | .cmpImmediate _ dest => [dest]
  | .je _ => []
  | .jl _ => []
  | .jle _ => []
  | .jb _ => []
  | .jbe _ => []
  | .jp _ => []
  | .jo _ => []
  | .js _ => []
  | .jne _ => []
  | .jnl _ => []
  | .jnle _ => []
  | .jnb _ => []
  | .jnbe _ => []
  | .jnp _ => []
  | .jno _ => []
  | .jns _ => []
  | .loop _ => []
  | .loopz _ => []
  | .loopnz _ => []
  | .jcxz _ => []
  | .noop => []

/-! ### What a step can do -/

/-- The offset an error reports (60_exceptions.md R240). -/
def DecodeError.offset : DecodeError → Nat
  | .truncatedInstruction o => o
  | .unsupportedEncoding o => o

/-- `t` is `s` after the raising of `e`: the status is the fault, the latch holds the leading byte's offset, and
everything else but the cursor is as it was. Nothing is said of the cursor (60_exceptions.md R246). -/
def Raised (s t : State) (e : DecodeError) : Prop :=
  t = { s with start := s.pos, status := .fault e, pos := t.pos }

/-- `t` is `s` after an instruction of `len` bytes that emits `v` (10_state.md R22 to R24). -/
def Emitted (s t : State) (len : Nat) (v : Instruction) : Prop :=
  t = { s with start := s.pos, pos := s.pos + len, out := s.out ++ [v] }

/-- The two ends of a supported instruction (60_exceptions.md R241): with its `len` bytes in the buffer it emits `v`,
without them it raises `TruncatedInstruction` at its leading byte. -/
def EmitsOrTruncates (i : Instr) (s : State) (len : Nat) (v : Instruction) : Prop :=
  (s.pos + len ≤ s.bufLen → ∃ t, exec i s = .next t ∧ Emitted s t len v) ∧
  (s.bufLen < s.pos + len → ∃ t, exec i s = .next t ∧ Raised s t (.truncatedInstruction s.pos))

/-- The encoding `bytes` stands for `i`: whatever follows, the decoder reads `i` and leaves what follows. -/
def DecodesTo (bytes : List Byte) (i : Instr) : Prop := ∀ c, decode (bytes ++ c) = .got i c

/-- One rule of 45_jumps.md (R171 to R190): the leading byte, the variant, the length 2, the error, the text. -/
def JumpRule (b0 : Byte) (mk : Byte → Instr) (op : Byte → Instruction) (name : String) : Prop :=
  ∀ (inc : Byte) (s : State), DecodesTo [b0, inc] (mk inc) ∧ EmitsOrTruncates (mk inc) s 2 (op inc) ∧
    ∀ noopText, formatLine noopText (op inc) = .ok (name.toList ++ ' ' :: decText (s8 inc))

/-- What `Unsupported()` does (46_noop.md R202): under the lenient policy a one-byte `Noop`, under the strict one the
error at the leading byte. -/
def UnsupportedByPolicy (i : Instr) (s : State) : Prop :=
  (s.policy = .lenientSkipOneByte → ∃ t, exec i s = .next t ∧ Emitted s t 1 .noop) ∧
  (s.policy = .strictFail → ∃ t, exec i s = .next t ∧ Raised s t (.unsupportedEncoding s.pos))

/-! ### Text (47_formatter.md) -/

/-- `ds` is `n` in base ten: digits only, at least one, no leading zero but in `0` itself (R222). -/
def IsDecimal (ds : Text) (n : Nat) : Prop :=
  ds ≠ [] ∧ (∀ c ∈ ds, '0' ≤ c ∧ c ≤ '9') ∧ (ds.head? = some '0' → ds = ['0']) ∧
    ds.foldl (fun acc c => 10 * acc + (c.toNat - '0'.toNat)) 0 = n

/-- The characters of R223. -/
def plainChar (c : Char) : Bool :=
  ('a' ≤ c && c ≤ 'z') || ('0' ≤ c && c ≤ '9') || c ∈ [' ', ',', '[', ']', '+', '-']

/-! ### The invariant of a run (10_state.md R36) -/

/-- What holds between steps: the buffer is in canonical form and lists nothing beyond N, `start <= pos <= N`, Done is
reached at the end of the buffer only, an error names the latched offset, and every emitted value is sound. -/
abbrev State.Inv (s : State) : Prop :=
  Memory.wf s.buf = true ∧ (∀ c ∈ s.buf, c.1 < s.bufLen) ∧ s.start ≤ s.pos ∧ s.pos ≤ s.bufLen ∧
  (s.status = .done → s.pos = s.bufLen) ∧
  (match s.status with
    | .fault e => e.offset = s.start
    | _ => True) ∧
  (∀ v ∈ s.out, v.sound = true)

/-! ### A linear decode (40_dispatch.md R93) -/

/-- The value an instruction emits, in one place: the operands of 41 and 42 put together as 43 to 46 say. -/
def valueOf : Instr → Instruction
  | .movRmR d w reg rm => directed d .mov (regOperand reg w) (rmOperand rm w)
  | .movRmImm _ rm imm => .movImmediate (immValue imm) (rmOperand rm imm.w)
  | .movRImm r imm => .movImmediate (immValue imm) (regOperand r imm.w)
  | .movAccMem w a => .mov (directOperand a) (accumulator w)
  | .movMemAcc w a => .mov (accumulator w) (directOperand a)
  | .addRmR d w reg rm => directed d .add (regOperand reg w) (rmOperand rm w)
  | .subRmR d w reg rm => directed d .sub (regOperand reg w) (rmOperand rm w)
  | .cmpRmR d w reg rm => directed d .cmp (regOperand reg w) (rmOperand rm w)
  | .addRmImm rm imm => .addImmediate (groupImmValue imm) (rmOperand rm imm.w)
  | .subRmImm rm imm => .subImmediate (groupImmValue imm) (rmOperand rm imm.w)
  | .cmpRmImm rm imm => .cmpImmediate (groupImmValue imm) (rmOperand rm imm.w)
  | .addAccImm imm => .addImmediate (immValue imm) (accumulator imm.w)
  | .subAccImm imm => .subImmediate (immValue imm) (accumulator imm.w)
  | .cmpAccImm imm => .cmpImmediate (immValue imm) (accumulator imm.w)
  | .jo inc => .jo inc
  | .jno inc => .jno inc
  | .jb inc => .jb inc
  | .jnb inc => .jnb inc
  | .je inc => .je inc
  | .jne inc => .jne inc
  | .jbe inc => .jbe inc
  | .jnbe inc => .jnbe inc
  | .js inc => .js inc
  | .jns inc => .jns inc
  | .jp inc => .jp inc
  | .jnp inc => .jnp inc
  | .jl inc => .jl inc
  | .jnl inc => .jnl inc
  | .jle inc => .jle inc
  | .jnle inc => .jnle inc
  | .loopnz inc => .loopnz inc
  | .loopz inc => .loopz inc
  | .loop inc => .loop inc
  | .jcxz inc => .jcxz inc
  | .noop _ => .noop

/-- An unsupported encoding. -/
def isNoop : Instr → Bool
  | .noop _ => true
  | _ => false

/-- The instructions `is` stand one after the other in the buffer of `s`, from the first offset up to the second. -/
def Consecutive (s : State) : Nat → List Instr → Nat → Prop
  | off, [], last => off = last
  | off, i :: is, last => (∃ rest, decode (s.windowAt off) = .got i rest) ∧ Consecutive s (off + i.length) is last

/-- The offset up to which `out` describes the buffer: the offset of the failing instruction after an error
(60_exceptions.md R246), else the cursor. -/
def State.boundary (s : State) : Nat :=
  match s.status with
  | .fault e => e.offset
  | _ => s.pos

/-- Why an error stands: a byte is missing at its offset, or, under strict_fail, the encoding there is unsupported. -/
def FaultJustified (s : State) : Prop :=
  match s.status with
  | .fault (.truncatedInstruction o) => o < s.bufLen ∧ decode (s.windowAt o) = .stop .truncated
  | .fault (.unsupportedEncoding o) =>
    s.policy = .strictFail ∧ ∃ c rest, decode (s.windowAt o) = .got (.noop c) rest
  | _ => True

/-- `out` is the decode of the buffer from offset 0 up to the boundary, each element the value of the instruction whose
leading byte stands at the sum of the lengths before it (40_dispatch.md R93); under strict_fail none of them is a Noop;
an error stands for a reason. -/
def LinearDecode (s : State) : Prop :=
  (∃ is : List Instr, Consecutive s 0 is s.boundary ∧ s.out = is.map valueOf ∧
    (s.policy = .strictFail → ∀ i ∈ is, isNoop i = false)) ∧
  s.boundary ≤ s.bufLen ∧ FaultJustified s

/-! ### The number of bytes an encoding demands, from its first two bytes (60_exceptions.md R241) -/

/-- `D` of 30_encoding.md R63, from the mode byte. -/
def modeDisp (b1 : Byte) : Nat :=
  if b1.toNat / 64 = 0 then (if b1.toNat % 8 = 6 then 2 else 0)
  else if b1.toNat / 64 = 1 then 1
  else if b1.toNat / 64 = 2 then 2
  else 0

/-- The bytes that must stand in the buffer from the leading byte on, read off the table of R241: a format with a mode
byte demands two before anything else is known; format N and an unsupported G1 sub-field demand nothing further. -/
def demanded (b0 : Byte) (b1 : Option Byte) : Nat :=
  let n := b0.toNat
  let w := n % 2
  if n / 4 ∈ [0x00, 0x0A, 0x0E, 0x22] then
    match b1 with
    | none => 2
    | some m => 2 + modeDisp m
  else if n / 2 = 0x63 then
    match b1 with
    | none => 2
    | some m => 2 + modeDisp m + 1 + w
  else if n / 4 = 0x20 then
    match b1 with
    | none => 2
    | some m =>
      if m.toNat / 8 % 8 ∈ [0, 5, 7] then
        2 + modeDisp m + (if w = 1 ∧ n / 2 % 2 = 0 then 2 else 1)
      else 2
  else if n / 2 ∈ [0x02, 0x16, 0x1E] then 2 + w
  else if n / 16 = 0x0B then 2 + n / 8 % 2
  else if n / 2 ∈ [0x50, 0x51] then 3
  else if n / 16 = 0x07 ∨ n / 4 = 0x38 then 2
  else 1

/-- An unsupported encoding by its first two bytes (30_encoding.md R66, R68, R69). -/
def unsupportedBytes (b0 : Byte) (b1 : Option Byte) : Prop :=
  recognisedLead b0 = false ∨
    (b0.toNat / 4 = 0x20 ∧ ∃ m, b1 = some m ∧ supportedSub (m.toNat / 8 % 8) = false)

/-! ### A whole decode in one pass (40_dispatch.md R90, R95) -/

/-- The clear form of `decode(bytes)`: walk the byte list, `fuel` instructions at most. -/
def decodeList (policy : Policy) : Nat → Nat → List Byte → Except DecodeError (List Instruction)
  | _, _, [] => .ok []
  | 0, _, _ :: _ => .ok []
  | fuel + 1, off, b :: bs =>
    match decode (b :: bs) with
    | .stop _ => .error (.truncatedInstruction off)
    | .got i rest =>
      if isNoop i && policy == .strictFail then .error (.unsupportedEncoding off)
      else match decodeList policy fuel (off + i.length) rest with
        | .error e => .error e
        | .ok vs => .ok (valueOf i :: vs)

end Sys2Proof.Machine
end

