-- ==== Sys2Proof/Certificates/Slice0/Obligations.lean ====
section
/-! DEFINITION. The statements for the provers. Each docstring names the rules of spec/ it formalises, or says that it
is derived from them. No statement says where the cursor stands after an error, beyond `pos <= N` (60_exceptions.md
R246), and none rests on the reset values of `buf`, `N` and `POLICY`, which the host supplies. -/

open Sys2Proof Sys2Proof.Machine

/-! ### Encodings -/

/-- Derived from 30_encoding.md R61, R62, R67 and 95_test_vectors.md: words written out from the encodings, one or more
per family. -/
def Obligations.DecodeReadsSpecEncodings : Prop :=
  decode [0b10001001#8, 0b11011001#8] = .got (.movRmR false true 0b011#3 (.register 0b001#3)) [] ∧
  decode [0b11000110#8, 0b01000111#8, 0x05#8, 0x0C#8] = .got (.movRmImm 0b000#3 (.disp8 0b111#3 0x05#8) (.byte 0x0C#8)) [] ∧
  decode [0b10111001#8, 0xF4#8, 0xFF#8] = .got (.movRImm 0b001#3 (.word 0xFFF4#16)) [] ∧
  decode [0b10100001#8, 0xE8#8, 0x03#8] = .got (.movAccMem true 1000#16) [] ∧
  decode [0b00101011#8, 0b01011110#8, 0x00#8] = .got (.subRmR true true 0b011#3 (.disp8 0b110#3 0x00#8)) [] ∧
  decode [0b10000011#8, 0b00111110#8, 0xFF#8, 0xFF#8, 0xFF#8] = .got (.cmpRmImm (.direct 0xFFFF#16) (.signed 0xFF#8)) [] ∧
  decode [0b00000101#8, 0xE8#8, 0x03#8] = .got (.addAccImm (.word 1000#16)) [] ∧
  decode [0b01110101#8, 0xFA#8] = .got (.jne 0xFA#8) [] ∧
  decode [0b11100010#8, 0xFB#8] = .got (.loop 0xFB#8) [] ∧
  decode [0x90#8, 0xF4#8] = .got (.noop (.leading 0x90#8)) [0xF4#8]

/-- Derived from 30_encoding.md R60 to R64: every well-formed instruction, with every operand at every value, is what
the decoder reads from its encoding, whatever bytes follow; an unsupported G1 encoding is followed by the mode byte
that the decoder looks at and leaves. It speaks of the model's syntax, which keeps fields that the emitted value does
not: the model's choice, log entry 12. Of the emitted values R71 says the contrary (RedundantEncodingsAgree). -/
def Obligations.DecodeOfEncode : Prop :=
  ∀ (i : Instr) (c : Cursor), i.wf = true → decode (encode i ++ (lookahead i ++ c)) = .got i (lookahead i ++ c)

/-- Derived from 30_encoding.md R60 to R64 and from the model's own choice of syntax, log entry 12 (DESIGN CHOICE): whatever
the decoder reads is well formed, and the bytes it consumed are exactly its encoding: no bit of the stream is dropped
between bytes and syntax. That holds because the syntax keeps the unexamined reg field, the ignored `s` and the bytes
behind a Noop; the rules do not give it, and no encoder inverts the step from bytes to emitted values (R71). -/
def Obligations.EncodeOfDecode : Prop :=
  ∀ (bs : List Byte) (i : Instr) (c : Cursor), decode bs = .got i c →
    i.wf = true ∧ bs = encode i ++ c ∧ lookahead i <+: c

/-- R92: each test of the chain decides alone, so their order is immaterial, and the last arm takes every byte that no
pattern matched. -/
def Obligations.EachPatternDecidesAlone : Prop :=
  ∀ (b0 : Byte) (c : Cursor),
    (b0 &&& 0xFC#8 = 0x88#8 → decode (b0 :: c) = decodeRmR .movRmR b0 c) ∧
    (b0 &&& 0xFE#8 = 0xC6#8 → decode (b0 :: c) = decodeMovRmImm b0 c) ∧
    (b0 &&& 0xF0#8 = 0xB0#8 → decode (b0 :: c) = decodeMovRImm b0 c) ∧
    (b0 &&& 0xFE#8 = 0xA0#8 → decode (b0 :: c) = decodeAccMem .movAccMem b0 c) ∧
    (b0 &&& 0xFE#8 = 0xA2#8 → decode (b0 :: c) = decodeAccMem .movMemAcc b0 c) ∧
    (b0 &&& 0xFC#8 = 0x00#8 → decode (b0 :: c) = decodeRmR .addRmR b0 c) ∧
    (b0 &&& 0xFC#8 = 0x28#8 → decode (b0 :: c) = decodeRmR .subRmR b0 c) ∧
    (b0 &&& 0xFC#8 = 0x38#8 → decode (b0 :: c) = decodeRmR .cmpRmR b0 c) ∧
    (b0 &&& 0xFC#8 = 0x80#8 → decode (b0 :: c) = decodeGroup b0 c) ∧
    (b0 &&& 0xFE#8 = 0x04#8 → decode (b0 :: c) = decodeAccImm .addAccImm b0 c) ∧
    (b0 &&& 0xFE#8 = 0x2C#8 → decode (b0 :: c) = decodeAccImm .subAccImm b0 c) ∧
    (b0 &&& 0xFE#8 = 0x3C#8 → decode (b0 :: c) = decodeAccImm .cmpAccImm b0 c) ∧
    (∀ p ∈ [(0x70#8, Instr.jo), (0x71#8, Instr.jno), (0x72#8, Instr.jb), (0x73#8, Instr.jnb), (0x74#8, Instr.je),
        (0x75#8, Instr.jne), (0x76#8, Instr.jbe), (0x77#8, Instr.jnbe), (0x78#8, Instr.js), (0x79#8, Instr.jns),
        (0x7A#8, Instr.jp), (0x7B#8, Instr.jnp), (0x7C#8, Instr.jl), (0x7D#8, Instr.jnl), (0x7E#8, Instr.jle),
        (0x7F#8, Instr.jnle), (0xE0#8, Instr.loopnz), (0xE1#8, Instr.loopz), (0xE2#8, Instr.loop),
        (0xE3#8, Instr.jcxz)],
      b0 = p.1 → decode (b0 :: c) = decodeJump p.2 c) ∧
    (recognisedLead b0 = false → decode (b0 :: c) = .got (.noop (.leading b0)) c)

/-- Derived from 30_encoding.md R60, R63 to R65: the first two bytes tell the length; a Noop has length 1; lengths are
1 to 6; and a step after which the run still runs has consumed exactly the length. -/
def Obligations.FirstTwoBytesTellTheLength : Prop :=
  (∀ (b0 : Byte) (bs : List Byte) (i : Instr) (c : Cursor), decode (b0 :: bs) = .got i c →
    i.length = (if isNoop i then 1 else demanded b0 bs.head?) ∧ 1 ≤ i.length ∧ i.length ≤ 6) ∧
  (∀ (s t : State), s.status = .running → step s = .next t → t.status = .running →
    ∃ i c, decode s.window = .got i c ∧ t.pos = s.pos + i.length)

/-- Derived from 30_encoding.md R65: six bytes are enough to decode an instruction, so reading six at most loses
nothing. -/
def Obligations.SixBytesSuffice : Prop :=
  ∀ bs : List Byte,
    (∀ i c, decode bs = .got i c → ∃ c', decode (bs.take maxInstrBytes) = .got i c') ∧
    (∀ r, decode bs = .stop r → decode (bs.take maxInstrBytes) = .stop r)

/-- R44: a 16-bit displacement, a direct address (in either format that has one) and a word immediate are each read low
byte first, as the signed value of lo + 256 * hi. -/
def Obligations.WordsAreLittleEndianSigned : Prop :=
  ∀ (lo hi : Byte) (c : Cursor), ∃ v : Word,
    v.toNat = lo.toNat + 256 * hi.toNat ∧
    s16 v = (if hi.toNat < 128 then (lo.toNat + 256 * hi.toNat : Int) else lo.toNat + 256 * hi.toNat - 65536) ∧
    (∀ rm, readRm 0b10#2 rm (lo :: hi :: c) = .got (.disp16 rm v) c) ∧
    readRm 0b00#2 0b110#3 (lo :: hi :: c) = .got (.direct v) c ∧
    (∀ mk b0, decodeAccMem mk b0 (lo :: hi :: c) = .got (mk (flagAt b0 7) v) c) ∧
    readImm true (lo :: hi :: c) = .got (.word v) c ∧
    readGroupImm false true (lo :: hi :: c) = .got (.word v) c

/-- R71: decoding is not injective; the rule's own examples. -/
def Obligations.RedundantEncodingsAgree : Prop :=
  (∃ i j k, decode [0x05#8, 0x05#8, 0x00#8] = .got i [] ∧ decode [0x81#8, 0xC0#8, 0x05#8, 0x00#8] = .got j [] ∧
    decode [0x83#8, 0xC0#8, 0x05#8] = .got k [] ∧
    ∀ x ∈ [i, j, k], valueOf x = .addImmediate (.word 5#16) ⟨false, some .ax, none, none⟩) ∧
  (∃ i j, decode [0xA1#8, 0xE8#8, 0x03#8] = .got i [] ∧ decode [0x8B#8, 0x06#8, 0xE8#8, 0x03#8] = .got j [] ∧
    ∀ x ∈ [i, j], valueOf x = .mov ⟨true, none, none, some 1000#16⟩ ⟨false, some .ax, none, none⟩) ∧
  (∃ i j, decode [0x89#8, 0xD9#8] = .got i [] ∧ decode [0x8B#8, 0xCB#8] = .got j [] ∧
    ∀ x ∈ [i, j], valueOf x = .mov ⟨false, some .bx, none, none⟩ ⟨false, some .cx, none, none⟩) ∧
  (∃ i j, decode [0xB1#8, 0x0C#8] = .got i [] ∧ decode [0xC6#8, 0xC1#8, 0x0C#8] = .got j [] ∧
    ∀ x ∈ [i, j], valueOf x = .movImmediate (.byte 12#8) ⟨false, some .cl, none, none⟩) ∧
  (∃ i j, decode [0x80#8, 0xC3#8, 0x05#8] = .got i [] ∧ decode [0x82#8, 0xC3#8, 0x05#8] = .got j [] ∧
    ∀ x ∈ [i, j], valueOf x = .addImmediate (.byte 5#8) ⟨false, some .bl, none, none⟩) ∧
  (∃ i j, decode [0x8B#8, 0x47#8, 0x00#8] = .got i [] ∧ decode [0x8B#8, 0x07#8] = .got j [] ∧
    valueOf i = .mov ⟨true, some .bx, none, some 0#16⟩ ⟨false, some .ax, none, none⟩ ∧
    valueOf j = .mov ⟨true, some .bx, none, none⟩ ⟨false, some .ax, none, none⟩ ∧
    ∀ x ∈ [i, j], ∀ noopText, formatLine noopText (valueOf x) = .ok "mov ax, [bx]".toList)

/-! ### Operands and immediates -/

/-- R110: the register table, the shape of a register operand, and the two name sets without overlap. -/
def Obligations.RegisterOperandTable : Prop :=
  (∀ (r : BitVec 3) (w : Bool), ∃ name,
    regOperand r w = { isMemAddr := false, register := some name, addrCalc := none, displacement := none } ∧
    [Register.al, .cl, .dl, .bl, .ah, .ch, .dh, .bh, .ax, .cx, .dx, .bx, .sp, .bp, .si, .di][
      (if w then 8 else 0) + r.toNat]? = some name) ∧
  (∀ r r' : BitVec 3, regOperand r false ≠ regOperand r' true)

/-- R118: the base/index table, both registers from the word set, and the text of each pair. -/
def Obligations.EffectiveAddressTable : Prop :=
  let codes := [0b000#3, 0b001#3, 0b010#3, 0b011#3, 0b100#3, 0b101#3, 0b110#3, 0b111#3]
  codes.map eaPair =
    [(.bx, some .si), (.bx, some .di), (.bp, some .si), (.bp, some .di), (.si, none), (.di, none), (.bp, none),
      (.bx, none)] ∧
  codes.map (fun rm => locText (memOperand rm none)) =
    ["[bx + si]", "[bx + di]", "[bp + si]", "[bp + di]", "[si]", "[di]", "[bp]", "[bx]"].map (fun x => .ok x.toList)

/-- R113 to R117: the five cases of the r/m operand, with the displacement bytes each consumes, and
`TruncatedInstruction` where one is missing. -/
def Obligations.RmOperandCases : Prop :=
  ∀ (w : Bool) (c : Cursor),
    (∀ rm, ∃ f, readRm 0b11#2 rm c = .got f c ∧ rmOperand f w = regOperand rm w) ∧
    (∀ lo hi, ∃ f v, readRm 0b00#2 0b110#3 (lo :: hi :: c) = .got f c ∧ v.toNat = lo.toNat + 256 * hi.toNat ∧
      rmOperand f w = { isMemAddr := true, register := none, addrCalc := none, displacement := some v }) ∧
    (∀ rm, rm ≠ 0b110#3 → ∃ f, readRm 0b00#2 rm c = .got f c ∧
      rmOperand f w = { isMemAddr := true, register := some (eaPair rm).1, addrCalc := (eaPair rm).2,
                        displacement := none }) ∧
    (∀ rm d, ∃ f v, readRm 0b01#2 rm (d :: c) = .got f c ∧ s16 v = s8 d ∧
      rmOperand f w = { isMemAddr := true, register := some (eaPair rm).1, addrCalc := (eaPair rm).2,
                        displacement := some v }) ∧
    (∀ rm lo hi, ∃ f v, readRm 0b10#2 rm (lo :: hi :: c) = .got f c ∧ v.toNat = lo.toNat + 256 * hi.toNat ∧
      rmOperand f w = { isMemAddr := true, register := some (eaPair rm).1, addrCalc := (eaPair rm).2,
                        displacement := some v }) ∧
    (∀ rm b, readRm 0b01#2 rm [] = .stop .truncated ∧ readRm 0b10#2 rm [] = .stop .truncated ∧
      readRm 0b10#2 rm [b] = .stop .truncated ∧ readRm 0b00#2 0b110#3 [] = .stop .truncated ∧
      readRm 0b00#2 0b110#3 [b] = .stop .truncated)

/-- R130 and R132: the bytes, the value and the tag of an immediate for each `w` and `s`, `s` ignored when `w = 0`,
and `TruncatedInstruction` where a byte is missing. -/
def Obligations.ImmediateByWidthAndSign : Prop :=
  ∀ (c : Cursor),
    (∀ s b, ∃ f v, readGroupImm s false (b :: c) = .got f c ∧ groupImmValue f = .byte v ∧ s8 v = s8 b) ∧
    (∀ b, ∃ f v, readGroupImm true true (b :: c) = .got f c ∧ groupImmValue f = .word v ∧ s16 v = s8 b) ∧
    (∀ lo hi, ∃ f v, readGroupImm false true (lo :: hi :: c) = .got f c ∧ groupImmValue f = .word v ∧
      v.toNat = lo.toNat + 256 * hi.toNat) ∧
    (∀ s w, readGroupImm s w [] = .stop .truncated) ∧
    (∀ b, readGroupImm false true [b] = .stop .truncated)

/-- Derived from R131: the formats without an `s` read and interpret their immediate as format G1 does with `s = 0`. -/
def Obligations.ImmediateWithoutSignBit : Prop :=
  ∀ (w : Bool) (c : Cursor),
    (∀ f c', readImm w c = .got f c' →
      ∃ g, readGroupImm false w c = .got g c' ∧ immValue f = groupImmValue g ∧ f.w = w ∧ f.bytes = g.bytes) ∧
    (∀ r, readImm w c = .stop r → readGroupImm false w c = .stop r)

/-- Derived from R122, R28: every `Location` the operand builders make has one of the four shapes, has no register only as a
direct address, and meets the source's invariant. -/
def Obligations.BuiltLocationsAreWellShaped : Prop :=
  ∀ l : Location, ((∃ r w, l = regOperand r w) ∨ (∃ rm w, l = rmOperand rm w) ∨ (∃ a, l = directOperand a)) →
    l.wellShaped = true ∧ l.invariant = true ∧
    (l.register = none → l.isMemAddr = true ∧ l.addrCalc = none ∧ l.displacement.isSome = true)

/-! ### Results, one family at a time -/

/-- R140, R150, R151, R152, with R119 for the roles: the register/memory forms. -/
def Obligations.RegisterMemoryFormsEmit : Prop :=
  ∀ (s : State) (d w : Bool) (reg : BitVec 3) (rm : RmField),
    let R := regOperand reg w
    let M := rmOperand rm w
    let rest := modeByte rm reg :: rm.dispBytes
    let L := 2 + rm.dispBytes.length
    (rm.wf = true →
      DecodesTo (lead2 0b100010#6 d w :: rest) (.movRmR d w reg rm) ∧
      DecodesTo (lead2 0b000000#6 d w :: rest) (.addRmR d w reg rm) ∧
      DecodesTo (lead2 0b001010#6 d w :: rest) (.subRmR d w reg rm) ∧
      DecodesTo (lead2 0b001110#6 d w :: rest) (.cmpRmR d w reg rm)) ∧
    EmitsOrTruncates (.movRmR d w reg rm) s L (if d then .mov M R else .mov R M) ∧
    EmitsOrTruncates (.addRmR d w reg rm) s L (if d then .add M R else .add R M) ∧
    EmitsOrTruncates (.subRmR d w reg rm) s L (if d then .sub M R else .sub R M) ∧
    EmitsOrTruncates (.cmpRmR d w reg rm) s L (if d then .cmp M R else .cmp R M)

/-- R153, R154, R155: immediate to register/memory, the sub-field in the mode byte, the immediate after the
displacement. -/
def Obligations.GroupFormsEmit : Prop :=
  ∀ (s : State) (rm : RmField) (imm : GroupImm),
    let M := rmOperand rm imm.w
    let I := groupImmValue imm
    let lead := lead2 0b100000#6 imm.s imm.w
    let L := 2 + rm.dispBytes.length + imm.bytes.length
    (rm.wf = true →
      DecodesTo (lead :: modeByte rm 0b000#3 :: (rm.dispBytes ++ imm.bytes)) (.addRmImm rm imm) ∧
      DecodesTo (lead :: modeByte rm 0b101#3 :: (rm.dispBytes ++ imm.bytes)) (.subRmImm rm imm) ∧
      DecodesTo (lead :: modeByte rm 0b111#3 :: (rm.dispBytes ++ imm.bytes)) (.cmpRmImm rm imm)) ∧
    imm.bytes.length = (if imm.s = false ∧ imm.w = true then 2 else 1) ∧
    EmitsOrTruncates (.addRmImm rm imm) s L (.addImmediate I M) ∧
    EmitsOrTruncates (.subRmImm rm imm) s L (.subImmediate I M) ∧
    EmitsOrTruncates (.cmpRmImm rm imm) s L (.cmpImmediate I M)

/-- R156, R157, R158 with R111: immediate to accumulator. -/
def Obligations.AccumulatorImmediateFormsEmit : Prop :=
  ∀ (s : State) (imm : ImmField),
    let A : Location := ⟨false, some (if imm.w then .ax else .al), none, none⟩
    let L := 2 + (if imm.w then 1 else 0)
    DecodesTo (lead1 0b0000010#7 imm.w :: imm.bytes) (.addAccImm imm) ∧
    DecodesTo (lead1 0b0010110#7 imm.w :: imm.bytes) (.subAccImm imm) ∧
    DecodesTo (lead1 0b0011110#7 imm.w :: imm.bytes) (.cmpAccImm imm) ∧
    EmitsOrTruncates (.addAccImm imm) s L (.addImmediate (immValue imm) A) ∧
    EmitsOrTruncates (.subAccImm imm) s L (.subImmediate (immValue imm) A) ∧
    EmitsOrTruncates (.cmpAccImm imm) s L (.cmpImmediate (immValue imm) A)

/-- R141, R142: the two immediate forms of mov; the reg field `x` after `1100011w` does not matter. -/
def Obligations.MovImmediateFormsEmit : Prop :=
  ∀ (s : State) (x r : BitVec 3) (rm : RmField) (imm : ImmField),
    (rm.wf = true →
      DecodesTo (lead1 0b1100011#7 imm.w :: modeByte rm x :: (rm.dispBytes ++ imm.bytes)) (.movRmImm x rm imm)) ∧
    DecodesTo (leadRI imm.w r :: imm.bytes) (.movRImm r imm) ∧
    EmitsOrTruncates (.movRmImm x rm imm) s (2 + rm.dispBytes.length + 1 + (if imm.w then 1 else 0))
      (.movImmediate (immValue imm) (rmOperand rm imm.w)) ∧
    EmitsOrTruncates (.movRImm r imm) s (2 + (if imm.w then 1 else 0)) (.movImmediate (immValue imm) (regOperand r imm.w))

/-- R143, R144 with R111 and R121: mov between the accumulator and a direct address of two bytes, for either `w`. -/
def Obligations.AccumulatorMemoryFormsEmit : Prop :=
  ∀ (s : State) (w : Bool) (a : Word),
    let A : Location := ⟨false, some (if w then .ax else .al), none, none⟩
    let M : Location := ⟨true, none, none, some a⟩
    DecodesTo [lead1 0b1010000#7 w, lowByte a, highByte a] (.movAccMem w a) ∧
    DecodesTo [lead1 0b1010001#7 w, lowByte a, highByte a] (.movMemAcc w a) ∧
    EmitsOrTruncates (.movAccMem w a) s 3 (.mov M A) ∧
    EmitsOrTruncates (.movMemAcc w a) s 3 (.mov A M)

/-- R170 with R171 to R178: the jumps 0x70 to 0x77; the increment is kept raw and does not move the cursor. -/
def Obligations.JumpsFrom70Emit : Prop :=
  JumpRule 0x70#8 .jo .jo "jo" ∧ JumpRule 0x71#8 .jno .jno "jno" ∧ JumpRule 0x72#8 .jb .jb "jb" ∧
  JumpRule 0x73#8 .jnb .jnb "jnb" ∧ JumpRule 0x74#8 .je .je "je" ∧ JumpRule 0x75#8 .jne .jne "jne" ∧
  JumpRule 0x76#8 .jbe .jbe "jbe" ∧ JumpRule 0x77#8 .jnbe .jnbe "jnbe"

/-- R170 with R179 to R186: the jumps 0x78 to 0x7F. -/
def Obligations.JumpsFrom78Emit : Prop :=
  JumpRule 0x78#8 .js .js "js" ∧ JumpRule 0x79#8 .jns .jns "jns" ∧ JumpRule 0x7A#8 .jp .jp "jp" ∧
  JumpRule 0x7B#8 .jnp .jnp "jnp" ∧ JumpRule 0x7C#8 .jl .jl "jl" ∧ JumpRule 0x7D#8 .jnl .jnl "jnl" ∧
  JumpRule 0x7E#8 .jle .jle "jle" ∧ JumpRule 0x7F#8 .jnle .jnle "jnle"

/-- R170 with R187 to R190: the loops and jcxz. -/
def Obligations.LoopsEmit : Prop :=
  JumpRule 0xE0#8 .loopnz .loopnz "loopnz" ∧ JumpRule 0xE1#8 .loopz .loopz "loopz" ∧
  JumpRule 0xE2#8 .loop .loop "loop" ∧ JumpRule 0xE3#8 .jcxz .jcxz "jcxz"

/-- R200: an unsupported leading byte, whatever follows it, under either policy. -/
def Obligations.UnsupportedLeadingByte : Prop :=
  ∀ (s : State) (b0 : Byte), recognisedLead b0 = false →
    DecodesTo [b0] (.noop (.leading b0)) ∧
    (s.pos < s.bufLen → UnsupportedByPolicy (.noop (.leading b0)) s)

/-- R201: a G1 leading byte with an unsupported sub-field; the mode byte is not consumed, and without a mode byte the
error is `TruncatedInstruction` under either policy. -/
def Obligations.UnsupportedGroupSubfield : Prop :=
  ∀ (s : State) (sf wf : Bool) (b1 : Byte), supportedSub (b1.toNat / 8 % 8) = false →
    (∀ c, decode (lead2 0b100000#6 sf wf :: b1 :: c) = .got (.noop (.group sf wf b1)) (b1 :: c)) ∧
    decode [lead2 0b100000#6 sf wf] = .stop .truncated ∧
    (s.pos + 1 < s.bufLen → UnsupportedByPolicy (.noop (.group sf wf b1)) s) ∧
    (s.bufLen ≤ s.pos + 1 →
      ∃ t, exec (.noop (.group sf wf b1)) s = .next t ∧ Raised s t (.truncatedInstruction s.pos))

/-- Derived from R140 to R144, R150 to R158, R170, R200 to R202: EVERY instruction completes, on every state in which
the bytes it looks at are there and, for a Noop, the policy is lenient: it emits its value and moves past itself. -/
def Obligations.EveryInstructionCompletes : Prop :=
  ∀ (i : Instr) (s : State), s.pos + i.reach ≤ s.bufLen → (isNoop i = true → s.policy = .lenientSkipOneByte) →
    ∃ t, exec i s = .next t ∧ Emitted s t i.length (valueOf i)

/-- Derived from R20, R22 to R26, R47, R245: the frame of every instruction. Every byte of the buffer, its length and
the policy are unchanged; the latch holds the old cursor; either one value is appended and the status is unchanged, or
nothing is appended and the status is a fault. -/
def Obligations.ExecFrame : Prop :=
  ∀ (i : Instr) (s t : State), exec i s = .next t →
    (∀ a, t.readByte a = s.readByte a) ∧ t.buf = s.buf ∧ t.bufLen = s.bufLen ∧ t.policy = s.policy ∧
    t.start = s.pos ∧
    ((t.out = s.out ++ [valueOf i] ∧ t.status = s.status) ∨
     (t.out = s.out ∧ ∃ e, t.status = .fault e ∧ e.offset = s.pos))

/-! ### The step -/

/-- Derived from R91: a step at a state whose bytes decode to an instruction is that instruction's meaning at that
state; nothing is added around it. That these bytes come as one list, six at most, is the model's choice (DESIGN CHOICE,
log entry 11). -/
def Obligations.StepRunsTheDecodedInstruction : Prop :=
  ∀ (s : State) (i : Instr) (c : Cursor), s.status = .running → s.pos ≠ s.bufLen → decode s.window = .got i c →
    step s = exec i s

/-- Derived from R40, R41: the bytes a step decodes are the bytes of the buffer from `pos` on. That they come as one list
that ends after six is the model's choice (DESIGN CHOICE, log entry 11); R65 gives six as the longest instruction. -/
def Obligations.WindowIsTheBufferAtPos : Prop :=
  ∀ (s : State) (k : Nat), s.window[k]? = if k < maxInstrBytes then s.readByte (s.pos + k) else none

/-- Derived from R274, R91: a run ends well exactly when a step begins at the end of the buffer. That the latch is loaded in
that step too is the model's reading of R91's pseudocode (log entry 4). -/
def Obligations.DoneExactlyAtEndOfBuffer : Prop :=
  ∀ (s : State), s.status = .running →
    ((∃ t, step s = .next t ∧ t.status = .done) ↔ s.pos = s.bufLen) ∧
    (∀ t, step s = .next t → t.status = .done → t = { s with start := s.pos, status := .done })

/-- Derived from R43 and R91: the end of the stream at a leading byte is normal termination; anywhere later in a step it is
`TruncatedInstruction` and never the end of the run; and the empty buffer decodes to the empty sequence under either
policy, which R43 marks as its own inference (from R41 and R91). -/
def Obligations.EndOfStreamIsNormal : Prop :=
  (∀ (s : State), s.status = .running → s.pos = s.bufLen → ∃ t, step s = .next t ∧ t.status = .done ∧ t.out = s.out) ∧
  (∀ (s : State) (r : DecodeStop), s.status = .running → s.pos < s.bufLen → decode s.window = .stop r →
    ∃ t, step s = .next t ∧ Raised s t (.truncatedInstruction s.pos)) ∧
  (∀ (s t : State), s.status = .running → s.pos < s.bufLen → step s = .next t → t.status ≠ .done) ∧
  (∀ p, decodeBuffer [] p = some (.ok []))

/-- Derived from R25, R247: in a state whose run is over no step is enabled: the step stops by name (log entry 5). -/
def Obligations.NoStepAfterTheEnd : Prop :=
  ∀ (s : State), (s.status = .done → step s = .fault .finished) ∧
    (∀ e, s.status = .fault e → step s = .fault (.aborted e))

/-- R24: a step appends at most one value at the end, never changes an earlier element, and appends nothing when it
ends in an error. -/
def Obligations.OutputIsAppendOnly : Prop :=
  ∀ (s t : State), step s = .next t →
    (t.out = s.out ∨ ∃ v, t.out = s.out ++ [v]) ∧ (∀ e, t.status = .fault e → t.out = s.out)

/-- R47: no step changes the buffer, and the same offset yields the same byte during a run; derived from R26, no step
changes the policy. -/
def Obligations.BufferAndPolicyAreReadOnly : Prop :=
  ∀ (s : State) (k : Nat), (∀ a, (runSteps k s).readByte a = s.readByte a) ∧ (runSteps k s).buf = s.buf ∧
    (runSteps k s).bufLen = s.bufLen ∧ (runSteps k s).policy = s.policy

/-- Derived from R22, R23: the latch takes the cursor, the cursor never moves back, and a step that emits moves it past
the instruction whatever that instruction is, a jump included. That the latch takes the cursor in the step that sets
Done too is the model's reading of R91's pseudocode against its prose (DEDUCED, log entry 4). -/
def Obligations.CursorMovesForwardOnly : Prop :=
  ∀ (s t : State), step s = .next t →
    t.start = s.pos ∧ s.pos ≤ t.pos ∧
    (∀ i c, decode s.window = .got i c → t.status = .running → s.pos ≠ s.bufLen → t.pos = t.start + i.length)

/-- Derived from R245, with R240 for the list of errors and R242 for strict_fail: an error is one of the two of a run,
reports the leading byte's offset, `UnsupportedEncoding` only under strict_fail; raising it changes the status (and the
cursor and the latch as the step's own actions do) and nothing else, and no step follows. The name of the stop that
stands for "no step is enabled" is the model's (DEDUCED, log entry 5). -/
def Obligations.RaisingAnError : Prop :=
  ∀ (s t : State) (e : DecodeError), s.status = .running → step s = .next t → t.status = .fault e →
    (e = .truncatedInstruction s.pos ∨ (e = .unsupportedEncoding s.pos ∧ s.policy = .strictFail)) ∧
    Raised s t e ∧ step t = .fault (.aborted e) ∧ t.result = some (.error e)

/-- R241: `TruncatedInstruction` is raised exactly when fewer bytes are left than the encoding demands, under either
policy, and reports the offset of the incomplete instruction. -/
def Obligations.TruncationExactly : Prop :=
  ∀ (s : State) (b0 : Byte), s.status = .running → s.readByte s.pos = some b0 →
    ((∃ t, step s = .next t ∧ Raised s t (.truncatedInstruction s.pos)) ↔
      s.bufLen - s.pos < demanded b0 (s.readByte (s.pos + 1))) ∧
    (∀ t o, step s = .next t → t.status = .fault (.truncatedInstruction o) → o = s.pos)

/-- R242: `UnsupportedEncoding` is raised exactly for an unsupported encoding under strict_fail; under the lenient
policy the step emits `Noop` and consumes one byte. -/
def Obligations.UnsupportedExactly : Prop :=
  ∀ (s : State) (b0 : Byte), s.status = .running → s.readByte s.pos = some b0 →
    ((∃ t, step s = .next t ∧ Raised s t (.unsupportedEncoding s.pos)) ↔
      s.policy = .strictFail ∧ unsupportedBytes b0 (s.readByte (s.pos + 1))) ∧
    (s.policy = .lenientSkipOneByte → unsupportedBytes b0 (s.readByte (s.pos + 1)) →
      ∃ t, step s = .next t ∧ Emitted s t 1 .noop)

/-- R248: the priority of the conditions of a step, in byte order, and the first error of a run is its last event. -/
def Obligations.ErrorsInByteOrder : Prop :=
  ∀ (s : State), s.status = .running →
    (s.pos = s.bufLen → ∃ t, step s = .next t ∧ t.status = .done) ∧
    (∀ b0, s.readByte s.pos = some b0 → recognisedLead b0 = false →
      ∃ t, step s = .next t ∧
        (if s.policy = .strictFail then Raised s t (.unsupportedEncoding s.pos) else Emitted s t 1 .noop)) ∧
    (∀ b0, s.readByte s.pos = some b0 → recognisedLead b0 = true → s.bufLen = s.pos + 1 →
      ∃ t, step s = .next t ∧ Raised s t (.truncatedInstruction s.pos)) ∧
    (∀ b0 b1, s.readByte s.pos = some b0 → s.readByte (s.pos + 1) = some b1 → b0.toNat / 4 = 0x20 →
      supportedSub (b1.toNat / 8 % 8) = false →
      ∃ t, step s = .next t ∧
        (if s.policy = .strictFail then Raised s t (.unsupportedEncoding s.pos) else Emitted s t 1 .noop)) ∧
    (∀ b0, s.readByte s.pos = some b0 → ¬ unsupportedBytes b0 (s.readByte (s.pos + 1)) →
      s.bufLen - s.pos < demanded b0 (s.readByte (s.pos + 1)) →
      ∃ t, step s = .next t ∧ Raised s t (.truncatedInstruction s.pos)) ∧
    (∀ t e k, step s = .next t → t.status = .fault e → runSteps k t = t)

/-- R97: under the lenient policy an unrecognised leading byte followed by a complete instruction decodes to `Noop` and
that instruction: the step after the `Noop` begins at the very next byte. -/
def Obligations.Resynchronisation : Prop :=
  ∀ (s : State) (b0 : Byte) (i : Instr) (c : Cursor),
    s.status = .running → s.policy = .lenientSkipOneByte → s.readByte s.pos = some b0 → recognisedLead b0 = false →
    decode (s.windowAt (s.pos + 1)) = .got i c → isNoop i = false →
    ∃ t u, step s = .next t ∧ step t = .next u ∧ u.out = s.out ++ [.noop, valueOf i] ∧ u.status = .running ∧
      u.pos = s.pos + 1 + i.length

/-- Derived from R275: a step uses only `buf`, `POLICY` and `pos`: another latch and another history give the same step, up
to the history it appends to. That the step that sets Done gives the same latch too rests on the model's reading of
R91's pseudocode against its prose (DEDUCED, log entry 4). -/
def Obligations.StepIgnoresHistory : Prop :=
  ∀ (s : State) (k : Nat) (o : List Instruction), s.status = .running →
    ∃ t vs, step s = .next t ∧ t.out = s.out ++ vs ∧
      step { s with start := k, out := o } = .next { t with out := o ++ vs }

/-- Derived from R26, R202: the policy matters to unsupported encodings only. -/
def Obligations.PolicyMattersToUnsupportedOnly : Prop :=
  ∀ (s : State) (p : Policy), s.status = .running →
    (∀ c rest, decode s.window ≠ .got (.noop c) rest) →
    ∃ t, step s = .next t ∧ step { s with policy := p } = .next { t with policy := p }

/-- Derived from R50, R52: an instruction depends on no byte beyond those it looks at. -/
def Obligations.LaterBytesDoNotMatter : Prop :=
  ∀ (s s' : State) (i : Instr) (c : Cursor), decode s.window = .got i c → s'.pos = s.pos →
    (∀ k, k < i.reach → s'.readByte (s.pos + k) = s.readByte (s.pos + k)) →
    ∃ c', decode s'.window = .got i c'

/-! ### Invariants -/

/-- Derived from R36, R28, R29, R120, R145, R240: the invariant of a run, kept by every step from every state that has
it. The canonical form of the cells is the model's way of keeping the buffer (DESIGN CHOICE, log entry 1). -/
def Obligations.StepKeepsTheRunInvariant : Prop :=
  ∀ (s t : State), s.Inv → step s = .next t → t.Inv

/-- Derived from R34, R270, R272: the invariant holds at reset and at the start of a run on any buffer under either
policy. The canonical form of the cells is the model's way of keeping the buffer (DESIGN CHOICE, log entry 1). -/
def Obligations.RunsStartInTheInvariant : Prop :=
  State.reset.Inv ∧ ∀ (bytes : List Byte) (p : Policy), (State.load bytes p).Inv

/-- Derived from R93, R246, R36: that `out` is the linear decode of the buffer up to the boundary, and that an error
stands for a reason, is kept by every step. -/
def Obligations.StepKeepsTheLinearDecode : Prop :=
  ∀ (s t : State), LinearDecode s → step s = .next t → LinearDecode t

/-- Derived from R34, R93: a run begins with nothing decoded. -/
def Obligations.RunsStartWithAnEmptyDecode : Prop :=
  LinearDecode State.reset ∧ ∀ (bytes : List Byte) (p : Policy), LinearDecode (State.load bytes p)

/-! ### Whole runs -/

/-- R270: what the start of a run leaves: the host's bytes, each at its offset, the host's policy, and the four
pieces of state at their values. -/
def Obligations.StartOfARun : Prop :=
  (State.reset.pos = 0 ∧ State.reset.start = 0 ∧ State.reset.out = [] ∧ State.reset.status = .running) ∧
  ∀ (bytes : List Byte) (p : Policy),
    let s := State.load bytes p
    s.pos = 0 ∧ s.start = 0 ∧ s.out = [] ∧ s.status = .running ∧ s.policy = p ∧ s.bufLen = bytes.length ∧
    ∀ k, s.readByte k = bytes[k]?

/-- Derived from R94, R91, R65: in every running state a step is enabled; it ends the run or consumes a byte; and a run
takes at most `N + 1` steps, a bound that R94 marks as its own inference. -/
def Obligations.ProgressAndTermination : Prop :=
  (∀ (s : State), s.status = .running →
    ∃ t, step s = .next t ∧ (t.status ≠ .running ∨ s.pos < t.pos)) ∧
  (∀ (s : State), s.pos ≤ s.bufLen → (runSteps (s.bufLen - s.pos + 1) s).status ≠ .running) ∧
  (∀ (bytes : List Byte) (p : Policy), ∃ r, decodeBuffer bytes p = some r)

/-- Derived from R90, R95: running the machine on a buffer gives exactly what the one-pass walk over the byte list
gives. -/
def Obligations.RunRefinesOnePassDecode : Prop :=
  ∀ (bytes : List Byte) (p : Policy), decodeBuffer bytes p = some (decodeList p bytes.length 0 bytes)

/-- Derived from R93, R95, R97: two buffers that each decode well decode, one after the other, to the two sequences one
after the other; an error of the second reports its offset behind the first. -/
def Obligations.DecodeOfConcatenation : Prop :=
  ∀ (xs ys : List Byte) (p : Policy) (vs : List Instruction), decodeBuffer xs p = some (.ok vs) →
    (∀ ws, decodeBuffer ys p = some (.ok ws) → decodeBuffer (xs ++ ys) p = some (.ok (vs ++ ws))) ∧
    (∀ o, decodeBuffer ys p = some (.error (.truncatedInstruction o)) →
      decodeBuffer (xs ++ ys) p = some (.error (.truncatedInstruction (xs.length + o)))) ∧
    (∀ o, decodeBuffer ys p = some (.error (.unsupportedEncoding o)) →
      decodeBuffer (xs ++ ys) p = some (.error (.unsupportedEncoding (xs.length + o))))

/-! ### The formatter -/

/-- R211, R212, R213, R214, R215: the text of an operand. -/
def Obligations.OperandText : Prop :=
  ([Register.al, .cl, .dl, .bl, .ah, .ch, .dh, .bh, .ax, .cx, .dx, .bx, .sp, .bp, .si, .di].map regText =
    ["al", "cl", "dl", "bl", "ah", "ch", "dh", "bh", "ax", "cx", "dx", "bx", "sp", "bp", "si", "di"].map String.toList) ∧
  (∀ r a d, locText ⟨false, some r, a, d⟩ = .ok (regText r)) ∧
  (∀ b i d, ∃ index disp,
    locText ⟨true, some b, i, d⟩ = .ok ('[' :: (regText b ++ index ++ disp ++ [']'])) ∧
    (i = none → index = []) ∧ (∀ r, i = some r → index = " + ".toList ++ regText r) ∧
    (d = none → disp = []) ∧
    (∀ v, d = some v → s16 v = 0 → disp = []) ∧
    (∀ v, d = some v → 0 < s16 v → disp = " + ".toList ++ decText (s16 v)) ∧
    (∀ v, d = some v → s16 v < 0 → disp = " - ".toList ++ decText (-(s16 v)))) ∧
  (∀ a v, locText ⟨true, none, a, some v⟩ = .ok ('[' :: (decText (v.toNat : Int) ++ [']'])))

/-- R222: the decimal text of an integer. -/
def Obligations.DecimalText : Prop :=
  ∀ v : Int, (0 ≤ v → IsDecimal (decText v) v.natAbs) ∧
    (v < 0 → ∃ ds, decText v = '-' :: ds ∧ IsDecimal ds v.natAbs)

/-- R216, R217, R218, R221: the lines of the two-operand values, destination first, the size prefix by the tag and only
before an immediate for memory, and the line of a Noop. -/
def Obligations.InstructionLines : Prop :=
  ∀ (noopText : Text) (src dest : Location) (data : Immediate) (x y : Text),
    locText dest = .ok x → locText src = .ok y →
    (∀ p ∈ [(Instruction.mov src dest, "mov"), (.add src dest, "add"), (.sub src dest, "sub"), (.cmp src dest, "cmp")],
      formatLine noopText p.1 = .ok (p.2.toList ++ " ".toList ++ x ++ ", ".toList ++ y)) ∧
    (∀ p ∈ [(Instruction.movImmediate data dest, "mov"), (.addImmediate data dest, "add"),
        (.subImmediate data dest, "sub"), (.cmpImmediate data dest, "cmp")],
      formatLine noopText p.1 = .ok (p.2.toList ++ " ".toList ++ x ++ ", ".toList ++
        (match dest.isMemAddr, data with
          | true, .byte v => "byte ".toList ++ decText (s8 v)
          | true, .word v => "word ".toList ++ decText (s16 v)
          | false, .byte v => decText (s8 v)
          | false, .word v => decText (s16 v)))) ∧
    formatLine noopText .noop = .ok noopText ∧ defaultNoopText = "noop".toList

/-- Derived from R225, R210, R243: the formatter gives a value a text exactly when each of its locations meets the
invariant, and refuses it by name otherwise (log entry 13). -/
def Obligations.FormatterTotalOnTheInvariant : Prop :=
  ∀ (noopText : Text) (i : Instruction),
    ((∀ l ∈ i.locations, l.invariant = true) → ∃ line, formatLine noopText i = .ok line) ∧
    ((∃ l ∈ i.locations, l.invariant = false) → formatLine noopText i = .error .invalidDirectAddressing)

/-- Derived from R223, which the spec marks as its own inference from R210 to R222: the characters of a line, NOOP_TEXT at
its default. -/
def Obligations.LinesArePlain : Prop :=
  ∀ (i : Instruction) (line : Text), formatLine defaultNoopText i = .ok line →
    line ≠ [] ∧ (∀ c ∈ line, plainChar c = true) ∧ line.getLast? ≠ some ' '

/-- R96: one text line per instruction, in the same order. -/
def Obligations.OneLinePerInstruction : Prop :=
  ∀ (noopText : Text) (is : List Instruction),
    (∀ lines, formatAll noopText is = .ok lines →
      lines.length = is.length ∧ ∀ (k : Nat) (i : Instruction) (line : Text),
        is[k]? = some i → lines[k]? = some line → formatLine noopText i = .ok line) ∧
    ((∀ i ∈ is, ∀ l ∈ i.locations, l.invariant = true) → ∃ lines, formatAll noopText is = .ok lines)

/-- Derived from R122, R243: whatever a run has emitted has a text; `InvalidDirectAddressing` is never met. -/
def Obligations.EmittedValuesHaveText : Prop :=
  ∀ (noopText : Text) (s : State), s.Inv → ∃ lines, formatAll noopText s.out = .ok lines ∧ lines.length = s.out.length
end

