-- ==== Sys2Proof/Laws/Decode.lean ====
section
/-! SUPPORT. What the readers and the encoder's parts do, said once: each reader on the bytes that the encoder writes
for its field, and what a reader that answered has read. -/

namespace Sys2Proof

/-! ### The combinator -/

@[simp] theorem Read.got_andThen {α β : Type} (v : α) (c : Cursor) (f : α → Cursor → Read β) :
    (Read.got v c).andThen f = f v c := rfl

@[simp] theorem Read.stop_andThen {α β : Type} (r : DecodeStop) (f : α → Cursor → Read β) :
    (Read.stop r : Read α).andThen f = .stop r := rfl

/-- Two readers in a row that answer: the first answered, and the second on what it left. -/
theorem Read.andThen_eq_got {α β : Type} {r : Read α} {f : α → Cursor → Read β} {v : β} {c : Cursor}
    (h : r.andThen f = .got v c) : ∃ u c', r = .got u c' ∧ f u c' = .got v c := by
  cases r with
  | got u c' => exact ⟨u, c', rfl, h⟩
  | stop r => cases h

/-- Two readers in a row that stop: the first stopped, or it answered and the second stopped. -/
theorem Read.andThen_eq_stop {α β : Type} {r : Read α} {f : α → Cursor → Read β} {q : DecodeStop}
    (h : r.andThen f = .stop q) : r = .stop q ∨ ∃ u c', r = .got u c' ∧ f u c' = .stop q := by
  cases r with
  | got u c' => exact .inr ⟨u, c', rfl, h⟩
  | stop r => cases h; exact .inl rfl

/-! ### Bytes and words -/

@[simp] theorem next_cons (b : Byte) (c : Cursor) : next (b :: c) = .got b c := rfl

@[simp] theorem next_nil : next [] = .stop .truncated := rfl

@[simp] theorem peek_cons (b : Byte) (c : Cursor) : peek (b :: c) = .got b (b :: c) := rfl

@[simp] theorem peek_nil : peek [] = .stop .truncated := rfl

@[simp] theorem nextWord_cons (lo hi : Byte) (c : Cursor) : nextWord (lo :: hi :: c) = .got (le16 lo hi) c := rfl

@[simp] theorem nextWord_nil : nextWord [] = .stop .truncated := rfl

@[simp] theorem nextWord_one (b : Byte) : nextWord [b] = .stop .truncated := rfl

theorem le16_toNat (lo hi : Byte) : (le16 lo hi).toNat = lo.toNat + 256 * hi.toNat := by
  have := lo.isLt
  have := hi.isLt
  simp only [le16, BitVec.toNat_ofNat]
  omega

theorem lowByte_toNat (v : Word) : (lowByte v).toNat = v.toNat % 256 := by
  simp [lowByte, BitVec.extractLsb'_toNat]

theorem highByte_toNat (v : Word) : (highByte v).toNat = v.toNat / 256 := by
  have := v.isLt
  simp only [highByte, BitVec.extractLsb'_toNat, Nat.shiftRight_eq_div_pow]
  omega

@[simp] theorem le16_lowByte_highByte (v : Word) : le16 (lowByte v) (highByte v) = v := by
  apply BitVec.eq_of_toNat_eq
  rw [le16_toNat, lowByte_toNat, highByte_toNat]
  omega

@[simp] theorem lowByte_le16 (lo hi : Byte) : lowByte (le16 lo hi) = lo := by
  apply BitVec.eq_of_toNat_eq
  have := lo.isLt
  rw [lowByte_toNat, le16_toNat]
  omega

@[simp] theorem highByte_le16 (lo hi : Byte) : highByte (le16 lo hi) = hi := by
  apply BitVec.eq_of_toNat_eq
  have := lo.isLt
  rw [highByte_toNat, le16_toNat]
  omega

@[simp] theorem wordBytes_le16 (lo hi : Byte) : wordBytes (le16 lo hi) = [lo, hi] := by
  simp [wordBytes]

@[simp] theorem nextWord_wordBytes (v : Word) (c : Cursor) : nextWord (wordBytes v ++ c) = .got v c := by
  simp [wordBytes]

theorem next_eq_got {c c' : Cursor} {b : Byte} (h : next c = .got b c') : c = b :: c' := by
  cases c with
  | nil => cases h
  | cons x xs => cases h; rfl

theorem peek_eq_got {c c' : Cursor} {b : Byte} (h : peek c = .got b c') : c' = c ∧ ∃ c'', c = b :: c'' := by
  cases c with
  | nil => cases h
  | cons x xs => cases h; exact ⟨rfl, _, rfl⟩

theorem nextWord_eq_got {c c' : Cursor} {v : Word} (h : nextWord c = .got v c') : c = wordBytes v ++ c' := by
  rcases c with _ | ⟨lo, _ | ⟨hi, c⟩⟩
  · cases h
  · cases h
  · cases h; simp

theorem next_eq_stop {c : Cursor} {r : DecodeStop} (h : next c = .stop r) : c = [] ∧ r = .truncated := by
  cases c with
  | nil => cases h; exact ⟨rfl, rfl⟩
  | cons x xs => cases h

theorem peek_eq_stop {c : Cursor} {r : DecodeStop} (h : peek c = .stop r) : c = [] ∧ r = .truncated := by
  cases c with
  | nil => cases h; exact ⟨rfl, rfl⟩
  | cons x xs => cases h

theorem nextWord_eq_stop {c : Cursor} {r : DecodeStop} (h : nextWord c = .stop r) :
    c.length < 2 ∧ r = .truncated := by
  rcases c with _ | ⟨lo, _ | ⟨hi, c⟩⟩
  · cases h; exact ⟨by simp, rfl⟩
  · cases h; exact ⟨by simp, rfl⟩
  · cases h

@[simp] theorem wordBytes_length (v : Word) : (wordBytes v).length = 2 := rfl

@[simp] theorem RmField.dispBytes_length (rm : RmField) : rm.dispBytes.length = rm.dispLen := by
  cases rm <;> rfl

@[simp] theorem ImmField.bytes_length (imm : ImmField) : imm.bytes.length = imm.len := by
  cases imm <;> rfl

@[simp] theorem GroupImm.bytes_length (imm : GroupImm) : imm.bytes.length = imm.len := by
  cases imm <;> rfl

/-! ### Fields of a byte -/

@[simp] theorem flagAt_lead2_six (op : BitVec 6) (x y : Bool) : flagAt (lead2 op x y) 6 = x := by
  revert op x y; decide

@[simp] theorem flagAt_lead2_seven (op : BitVec 6) (x y : Bool) : flagAt (lead2 op x y) 7 = y := by
  revert op x y; decide

@[simp] theorem flagAt_lead1_seven (op : BitVec 7) (y : Bool) : flagAt (lead1 op y) 7 = y := by
  revert op y; decide

@[simp] theorem flagAt_leadRI_four (w : Bool) (r : BitVec 3) : flagAt (leadRI w r) 4 = w := by
  revert w r; decide

@[simp] theorem field_leadRI_five (w : Bool) (r : BitVec 3) : field (leadRI w r) 5 3 = r := by
  revert w r; decide

theorem fields_of_append (m : BitVec 2) (r n : BitVec 3) :
    field (m ++ r ++ n : Byte) 0 2 = m ∧ field (m ++ r ++ n : Byte) 2 3 = r ∧ field (m ++ r ++ n : Byte) 5 3 = n := by
  revert m r n; decide

@[simp] theorem field_modeByte_mod (rm : RmField) (reg : BitVec 3) : field (modeByte rm reg) 0 2 = rm.modBits :=
  (fields_of_append _ _ _).1

@[simp] theorem field_modeByte_reg (rm : RmField) (reg : BitVec 3) : field (modeByte rm reg) 2 3 = reg :=
  (fields_of_append _ _ _).2.1

@[simp] theorem field_modeByte_rm (rm : RmField) (reg : BitVec 3) : field (modeByte rm reg) 5 3 = rm.rmBits :=
  (fields_of_append _ _ _).2.2

/-- A mode byte is its three fields. -/
theorem append_of_fields (b : Byte) : (field b 0 2 ++ field b 2 3 ++ field b 5 3 : Byte) = b := by
  revert b; decide

/-! ### Displacements and immediates, both ways -/

/-- The reader of displacements on what the encoder writes. -/
theorem readRm_encoded (rm : RmField) (c : Cursor) (h : rm.wf = true) :
    readRm rm.modBits rm.rmBits (rm.dispBytes ++ c) = .got rm c := by
  cases rm with
  | base r =>
    have : r ≠ 0b110#3 := by simpa [RmField.wf] using h
    simp [readRm, RmField.modBits, RmField.rmBits, RmField.dispBytes, this]
  | direct a => simp [readRm, RmField.modBits, RmField.rmBits, RmField.dispBytes]
  | disp8 r d => simp [readRm, RmField.modBits, RmField.rmBits, RmField.dispBytes]
  | disp16 r d => simp [readRm, RmField.modBits, RmField.rmBits, RmField.dispBytes]
  | register r => simp [readRm, RmField.modBits, RmField.rmBits, RmField.dispBytes]

/-- What the reader of displacements has read when it answers. -/
theorem readRm_eq_got {m : BitVec 2} {r : BitVec 3} {c c' : Cursor} {rm : RmField} (h : readRm m r c = .got rm c') :
    rm.wf = true ∧ rm.modBits = m ∧ rm.rmBits = r ∧ c = rm.dispBytes ++ c' := by
  unfold readRm at h
  split at h
  · cases h; simp_all [RmField.wf, RmField.modBits, RmField.rmBits, RmField.dispBytes]
  split at h
  · split at h
    · obtain ⟨a, c1, h1, h2⟩ := Read.andThen_eq_got h
      cases h2
      simp_all [RmField.wf, RmField.modBits, RmField.rmBits, RmField.dispBytes, nextWord_eq_got h1]
    · cases h; simp_all [RmField.wf, RmField.modBits, RmField.rmBits, RmField.dispBytes]
  split at h
  · obtain ⟨a, c1, h1, h2⟩ := Read.andThen_eq_got h
    cases h2
    simp_all [RmField.wf, RmField.modBits, RmField.rmBits, RmField.dispBytes, next_eq_got h1]
  · obtain ⟨a, c1, h1, h2⟩ := Read.andThen_eq_got h
    cases h2
    have hm : m = 0b10#2 := by
      revert m; decide
    simp_all [RmField.wf, RmField.modBits, RmField.rmBits, RmField.dispBytes, nextWord_eq_got h1]

/-- The reader of an immediate without `s` on what the encoder writes. -/
@[simp] theorem readImm_encoded (imm : ImmField) (c : Cursor) : readImm imm.w (imm.bytes ++ c) = .got imm c := by
  cases imm <;> simp [readImm, ImmField.w, ImmField.bytes]

/-- What the reader of an immediate without `s` has read when it answers. -/
theorem readImm_eq_got {w : Bool} {c c' : Cursor} {imm : ImmField} (h : readImm w c = .got imm c') :
    imm.w = w ∧ c = imm.bytes ++ c' := by
  cases w
  · obtain ⟨a, c1, h1, h2⟩ := Read.andThen_eq_got h
    cases h2
    simp [ImmField.w, ImmField.bytes, next_eq_got h1]
  · obtain ⟨a, c1, h1, h2⟩ := Read.andThen_eq_got h
    cases h2
    simp [ImmField.w, ImmField.bytes, nextWord_eq_got h1]

/-- The reader of a G1 immediate on what the encoder writes. -/
@[simp] theorem readGroupImm_encoded (imm : GroupImm) (c : Cursor) :
    readGroupImm imm.s imm.w (imm.bytes ++ c) = .got imm c := by
  cases imm <;> simp [readGroupImm, GroupImm.s, GroupImm.w, GroupImm.bytes]

/-- What the reader of a G1 immediate has read when it answers. -/
theorem readGroupImm_eq_got {s w : Bool} {c c' : Cursor} {imm : GroupImm} (h : readGroupImm s w c = .got imm c') :
    imm.s = s ∧ imm.w = w ∧ c = imm.bytes ++ c' := by
  cases w
  · obtain ⟨a, c1, h1, h2⟩ := Read.andThen_eq_got h
    cases h2
    simp [GroupImm.s, GroupImm.w, GroupImm.bytes, next_eq_got h1]
  · cases s
    · obtain ⟨a, c1, h1, h2⟩ := Read.andThen_eq_got h
      cases h2
      simp [GroupImm.s, GroupImm.w, GroupImm.bytes, nextWord_eq_got h1]
    · obtain ⟨a, c1, h1, h2⟩ := Read.andThen_eq_got h
      cases h2
      simp [GroupImm.s, GroupImm.w, GroupImm.bytes, next_eq_got h1]

/-- The operations of format G1: the sub-field is 000, 101 or 111, or unsupported (30_encoding.md R68). -/
theorem groupRow_cases (b1 : Byte) :
    (field b1 2 3 = 0b000#3 ∧ groupRow (field b1 2 3) = some .addRmImm) ∨
    (field b1 2 3 = 0b101#3 ∧ groupRow (field b1 2 3) = some .subRmImm) ∨
    (field b1 2 3 = 0b111#3 ∧ groupRow (field b1 2 3) = some .cmpRmImm) ∨
    (supportedSub (b1.toNat / 8 % 8) = false ∧ groupRow (field b1 2 3) = none) := by
  have h : ∀ b : Byte, field b 2 3 = 0b000#3 ∨ field b 2 3 = 0b101#3 ∨ field b 2 3 = 0b111#3 ∨
      (supportedSub (b.toNat / 8 % 8) = false ∧ field b 2 3 ≠ 0b000#3 ∧ field b 2 3 ≠ 0b101#3 ∧
        field b 2 3 ≠ 0b111#3) := by decide
  rcases h b1 with h | h | h | ⟨h, h0, h5, h7⟩
  · exact .inl ⟨h, by rw [h]; rfl⟩
  · exact .inr (.inl ⟨h, by rw [h]; rfl⟩)
  · exact .inr (.inr (.inl ⟨h, by rw [h]; rfl⟩))
  · exact .inr (.inr (.inr ⟨h, by simp [groupRow, h0, h5, h7]⟩))

/-- No instruction is read from no byte. -/
@[simp] theorem decode_nil : decode [] = .stop .endOfStream := rfl

end Sys2Proof
end

