-- ==== Sys2Proof/Laws/State.lean ====
section
/-! SUPPORT. One lemma per field of State and update of Machine/Ops.lean, true by definition. -/

namespace Sys2Proof.Machine

variable (s : State)

/-! ### latch -/

@[simp] theorem State.latch_buf : s.latch.buf = s.buf := rfl

@[simp] theorem State.latch_bufLen : s.latch.bufLen = s.bufLen := rfl

@[simp] theorem State.latch_policy : s.latch.policy = s.policy := rfl

@[simp] theorem State.latch_pos : s.latch.pos = s.pos := rfl

@[simp] theorem State.latch_start : s.latch.start = s.pos := rfl

@[simp] theorem State.latch_out : s.latch.out = s.out := rfl

@[simp] theorem State.latch_status : s.latch.status = s.status := rfl

/-! ### advance -/

@[simp] theorem State.advance_buf (n : Nat) : (s.advance n).buf = s.buf := rfl

@[simp] theorem State.advance_bufLen (n : Nat) : (s.advance n).bufLen = s.bufLen := rfl

@[simp] theorem State.advance_policy (n : Nat) : (s.advance n).policy = s.policy := rfl

@[simp] theorem State.advance_pos (n : Nat) : (s.advance n).pos = s.pos + n := rfl

@[simp] theorem State.advance_start (n : Nat) : (s.advance n).start = s.start := rfl

@[simp] theorem State.advance_out (n : Nat) : (s.advance n).out = s.out := rfl

@[simp] theorem State.advance_status (n : Nat) : (s.advance n).status = s.status := rfl

/-! ### exhaust -/

@[simp] theorem State.exhaust_buf : s.exhaust.buf = s.buf := rfl

@[simp] theorem State.exhaust_bufLen : s.exhaust.bufLen = s.bufLen := rfl

@[simp] theorem State.exhaust_policy : s.exhaust.policy = s.policy := rfl

@[simp] theorem State.exhaust_pos : s.exhaust.pos = s.pos + (s.bufLen - s.pos) := rfl

@[simp] theorem State.exhaust_start : s.exhaust.start = s.start := rfl

@[simp] theorem State.exhaust_out : s.exhaust.out = s.out := rfl

@[simp] theorem State.exhaust_status : s.exhaust.status = s.status := rfl

/-! ### emit -/

@[simp] theorem State.emit_buf (v : Instruction) : (s.emit v).buf = s.buf := rfl

@[simp] theorem State.emit_bufLen (v : Instruction) : (s.emit v).bufLen = s.bufLen := rfl

@[simp] theorem State.emit_policy (v : Instruction) : (s.emit v).policy = s.policy := rfl

@[simp] theorem State.emit_pos (v : Instruction) : (s.emit v).pos = s.pos := rfl

@[simp] theorem State.emit_start (v : Instruction) : (s.emit v).start = s.start := rfl

@[simp] theorem State.emit_out (v : Instruction) : (s.emit v).out = s.out ++ [v] := rfl

@[simp] theorem State.emit_status (v : Instruction) : (s.emit v).status = s.status := rfl

/-! ### raise -/

@[simp] theorem State.raise_buf (e : DecodeError) : (s.raise e).buf = s.buf := rfl

@[simp] theorem State.raise_bufLen (e : DecodeError) : (s.raise e).bufLen = s.bufLen := rfl

@[simp] theorem State.raise_policy (e : DecodeError) : (s.raise e).policy = s.policy := rfl

@[simp] theorem State.raise_pos (e : DecodeError) : (s.raise e).pos = s.pos := rfl

@[simp] theorem State.raise_start (e : DecodeError) : (s.raise e).start = s.start := rfl

@[simp] theorem State.raise_out (e : DecodeError) : (s.raise e).out = s.out := rfl

@[simp] theorem State.raise_status (e : DecodeError) : (s.raise e).status = .fault e := rfl

/-! ### finish -/

@[simp] theorem State.finish_buf : s.finish.buf = s.buf := rfl

@[simp] theorem State.finish_bufLen : s.finish.bufLen = s.bufLen := rfl

@[simp] theorem State.finish_policy : s.finish.policy = s.policy := rfl

@[simp] theorem State.finish_pos : s.finish.pos = s.pos := rfl

@[simp] theorem State.finish_start : s.finish.start = s.pos := rfl

@[simp] theorem State.finish_out : s.finish.out = s.out := rfl

@[simp] theorem State.finish_status : s.finish.status = .done := rfl

/-! ### truncate -/

@[simp] theorem State.truncate_buf : s.truncate.buf = s.buf := rfl

@[simp] theorem State.truncate_bufLen : s.truncate.bufLen = s.bufLen := rfl

@[simp] theorem State.truncate_policy : s.truncate.policy = s.policy := rfl

@[simp] theorem State.truncate_pos : s.truncate.pos = s.pos + (s.bufLen - s.pos) := rfl

@[simp] theorem State.truncate_start : s.truncate.start = s.pos := rfl

@[simp] theorem State.truncate_out : s.truncate.out = s.out := rfl

@[simp] theorem State.truncate_status : s.truncate.status = .fault (.truncatedInstruction s.pos) := rfl

/-! ### emitted -/

@[simp] theorem State.emitted_buf (len : Nat) (v : Instruction) : (s.emitted len v).buf = s.buf := rfl

@[simp] theorem State.emitted_bufLen (len : Nat) (v : Instruction) : (s.emitted len v).bufLen = s.bufLen := rfl

@[simp] theorem State.emitted_policy (len : Nat) (v : Instruction) : (s.emitted len v).policy = s.policy := rfl

@[simp] theorem State.emitted_pos (len : Nat) (v : Instruction) : (s.emitted len v).pos = s.pos + len := rfl

@[simp] theorem State.emitted_start (len : Nat) (v : Instruction) : (s.emitted len v).start = s.pos := rfl

@[simp] theorem State.emitted_out (len : Nat) (v : Instruction) : (s.emitted len v).out = s.out ++ [v] := rfl

@[simp] theorem State.emitted_status (len : Nat) (v : Instruction) : (s.emitted len v).status = s.status := rfl

/-! ### The start of a run -/

variable (bytes : List Byte) (policy : Policy)

@[simp] theorem State.load_buf : (State.load bytes policy).buf = Memory.store [] 0 bytes := rfl

@[simp] theorem State.load_bufLen : (State.load bytes policy).bufLen = bytes.length := rfl

@[simp] theorem State.load_policy : (State.load bytes policy).policy = policy := rfl

@[simp] theorem State.load_pos : (State.load bytes policy).pos = 0 := rfl

@[simp] theorem State.load_start : (State.load bytes policy).start = 0 := rfl

@[simp] theorem State.load_out : (State.load bytes policy).out = [] := rfl

@[simp] theorem State.load_status : (State.load bytes policy).status = .running := rfl

/-! ### The host's placing of bytes -/

@[simp] theorem State.place_buf : (s.place bytes).buf = Memory.store s.buf s.pos bytes := rfl

@[simp] theorem State.place_bufLen : (s.place bytes).bufLen = max s.bufLen (s.pos + bytes.length) := rfl

@[simp] theorem State.place_policy : (s.place bytes).policy = s.policy := rfl

@[simp] theorem State.place_pos : (s.place bytes).pos = s.pos := rfl

@[simp] theorem State.place_start : (s.place bytes).start = s.start := rfl

@[simp] theorem State.place_out : (s.place bytes).out = s.out := rfl

@[simp] theorem State.place_status : (s.place bytes).status = .running := rfl

end Sys2Proof.Machine
end

