-- ==== Sys2Proof/Laws/Memory.lean ====
section
/-! SUPPORT. The buffer's cells: a read after a write, and that every memory operation keeps the canonical form. -/

namespace Sys2Proof.Machine

/-! ### Reading -/

@[simp] theorem Memory.read_nil (k : Nat) : Memory.read [] k = Config.unlistedByte := rfl

theorem Memory.read_cons (a : Nat) (b : Byte) (m : Memory) (k : Nat) :
    Memory.read ((a, b) :: m) k = if a = k then b else Memory.read m k := rfl

/-- An offset that no cell names reads as the unlisted byte. -/
theorem Memory.read_of_not_mem {m : Memory} {k : Nat} (h : ∀ c ∈ m, c.1 ≠ k) :
    Memory.read m k = Config.unlistedByte := by
  induction m with
  | nil => rfl
  | cons c m ih =>
    obtain ⟨a, b⟩ := c
    rw [Memory.read_cons, if_neg (h (a, b) (by simp)), ih fun c hc => h c (by simp [hc])]

/-! ### The canonical form -/

theorem Memory.wf_cons (a : Nat) (b : Byte) (m : Memory) :
    Memory.wf ((a, b) :: m) = true ↔ b ≠ Config.unlistedByte ∧ (∀ c ∈ m, a < c.1) ∧ Memory.wf m = true := by
  simp [Memory.wf, and_assoc]

/-- Nothing of a canonical tail stands at or before its head's offset. -/
theorem Memory.read_tail {a k : Nat} {b : Byte} {m : Memory} (h : Memory.wf ((a, b) :: m) = true) (hk : k ≤ a) :
    Memory.read m k = Config.unlistedByte :=
  Memory.read_of_not_mem fun c hc => by
    have := ((Memory.wf_cons a b m).mp h).2.1 c hc
    omega

theorem Memory.read_consCell {a k : Nat} {b : Byte} {m : Memory} (h : ∀ c ∈ m, a < c.1) :
    Memory.read (Memory.consCell a b m) k = if a = k then b else Memory.read m k := by
  unfold Memory.consCell
  split
  · split
    · subst_vars
      exact Memory.read_of_not_mem fun c hc => by have := h c hc; omega
    · rfl
  · rfl

theorem Memory.wf_consCell {a : Nat} {b : Byte} {m : Memory} (h : ∀ c ∈ m, a < c.1) (hm : Memory.wf m = true) :
    Memory.wf (Memory.consCell a b m) = true := by
  unfold Memory.consCell
  split
  · exact hm
  · exact (Memory.wf_cons a b m).mpr ⟨by assumption, h, hm⟩

theorem Memory.mem_consCell {a : Nat} {b : Byte} {m : Memory} {c : Host.Cell} (h : c ∈ Memory.consCell a b m) :
    c = (a, b) ∨ c ∈ m := by
  unfold Memory.consCell at h
  split at h
  · exact .inr h
  · simpa using h

/-- A write adds no cell but its own. -/
theorem Memory.mem_write {m : Memory} {k : Nat} {v : Byte} {c : Host.Cell} (h : c ∈ Memory.write m k v) :
    c = (k, v) ∨ c ∈ m := by
  induction m with
  | nil => simpa using Memory.mem_consCell h
  | cons x m ih =>
    obtain ⟨a, b⟩ := x
    unfold Memory.write at h
    split at h
    · exact Memory.mem_consCell h
    split at h
    · rcases Memory.mem_consCell h with h | h
      · exact .inl h
      · exact .inr (by simp [h])
    · rcases List.mem_cons.mp h with h | h
      · exact .inr (by simp [h])
      · rcases ih h with h | h
        · exact .inl h
        · exact .inr (by simp [h])

/-- A write keeps the canonical form. -/
theorem Memory.wf_write {m : Memory} (k : Nat) (v : Byte) (h : Memory.wf m = true) :
    Memory.wf (Memory.write m k v) = true := by
  induction m with
  | nil => exact Memory.wf_consCell (by simp) h
  | cons x m ih =>
    obtain ⟨a, b⟩ := x
    obtain ⟨hb, hlt, hm⟩ := (Memory.wf_cons a b m).mp h
    unfold Memory.write
    split
    · refine Memory.wf_consCell (fun c hc => ?_) h
      rcases List.mem_cons.mp hc with rfl | hc
      · assumption
      · have := hlt c hc; omega
    split
    · subst_vars
      exact Memory.wf_consCell hlt hm
    · refine (Memory.wf_cons a b _).mpr ⟨hb, fun c hc => ?_, ih hm⟩
      rcases Memory.mem_write hc with rfl | hc
      · show a < k; omega
      · exact hlt c hc

/-- A read after a write: the byte written at its offset, the old byte everywhere else. -/
theorem Memory.read_write {m : Memory} (k : Nat) (v : Byte) (j : Nat) (h : Memory.wf m = true) :
    Memory.read (Memory.write m k v) j = if k = j then v else Memory.read m j := by
  induction m with
  | nil => exact Memory.read_consCell (by simp)
  | cons x m ih =>
    obtain ⟨a, b⟩ := x
    obtain ⟨hb, hlt, hm⟩ := (Memory.wf_cons a b m).mp h
    unfold Memory.write
    split
    · refine Memory.read_consCell (fun c hc => ?_)
      rcases List.mem_cons.mp hc with rfl | hc
      · assumption
      · have := hlt c hc; omega
    split
    · subst_vars
      rw [Memory.read_consCell hlt, Memory.read_cons]
      split <;> rfl
    · rw [Memory.read_cons, Memory.read_cons, ih hm]
      split
      · rw [if_neg]; omega
      · rfl

/-! ### A run of bytes -/

/-- Storing bytes keeps the canonical form. -/
theorem Memory.wf_store {m : Memory} (k : Nat) (bs : List Byte) (h : Memory.wf m = true) :
    Memory.wf (Memory.store m k bs) = true := by
  induction bs generalizing m k with
  | nil => exact h
  | cons b bs ih => exact ih (k + 1) (Memory.wf_write k b h)

/-- Storing bytes adds no cell beyond the last of them. -/
theorem Memory.mem_store {m : Memory} {k : Nat} {bs : List Byte} {c : Host.Cell} (h : c ∈ Memory.store m k bs) :
    c ∈ m ∨ c.1 < k + bs.length := by
  induction bs generalizing m k with
  | nil => exact .inl h
  | cons b bs ih =>
    rcases ih h with h | h
    · rcases Memory.mem_write h with rfl | h
      · right; simp
      · exact .inl h
    · right; simp only [List.length_cons]; omega

/-- Reading after storing bytes: each byte at its offset, the old byte elsewhere. -/
theorem Memory.read_store {m : Memory} (k : Nat) (bs : List Byte) (j : Nat) (h : Memory.wf m = true) :
    Memory.read (Memory.store m k bs) j = if k ≤ j then (bs[j - k]?).getD (Memory.read m j) else Memory.read m j := by
  induction bs generalizing m k with
  | nil => simp [Memory.store]
  | cons b bs ih =>
    rw [Memory.store, ih (k + 1) (Memory.wf_write k b h), Memory.read_write k b j h]
    rcases Nat.lt_trichotomy k j with hkj | rfl | hkj
    · obtain ⟨d, rfl⟩ : ∃ d, j = k + 1 + d := ⟨j - (k + 1), by omega⟩
      have h1 : k + 1 ≤ k + 1 + d := by omega
      have h2 : k ≤ k + 1 + d := by omega
      have h3 : k ≠ k + 1 + d := by omega
      rw [if_pos h1, if_neg h3, if_pos h2, show k + 1 + d - (k + 1) = d by omega,
        show k + 1 + d - k = d + 1 by omega, List.getElem?_cons_succ]
    · simp
    · rw [if_neg (by omega), if_neg (by omega), if_neg (by omega)]

/-- The buffer of a run that starts is in canonical form, and lists nothing beyond N. -/
theorem State.load_buf_wf (bytes : List Byte) (policy : Policy) :
    Memory.wf (State.load bytes policy).buf = true ∧
      ∀ c ∈ (State.load bytes policy).buf, c.1 < (State.load bytes policy).bufLen := by
  refine ⟨Memory.wf_store 0 bytes rfl, fun c hc => ?_⟩
  rcases Memory.mem_store hc with h | h
  · cases h
  · simpa using h

/-- The host's placing of bytes keeps the canonical form. -/
theorem State.place_buf_wf {s : State} (bytes : List Byte) (h : Memory.wf s.buf = true) :
    Memory.wf (s.place bytes).buf = true :=
  Memory.wf_store s.pos bytes h

end Sys2Proof.Machine
end

