-- ==== Sys2Proof/Laws/Ops.lean ====
section
/-! SUPPORT. One lemma for each shared operation that says everything it can do, the bytes a step sees, and what the
meaning of each instruction is in one sentence (`exec_eq_perform`). -/

namespace Sys2Proof.Machine

/-! ### Reading the buffer -/

theorem State.readByte_of_lt {s : State} {a : Nat} (h : a < s.bufLen) :
    s.readByte a = some (Memory.read s.buf a) := if_pos h

theorem State.readByte_of_le {s : State} {a : Nat} (h : s.bufLen ≤ a) : s.readByte a = none :=
  if_neg (by omega)

/-- The bytes a cursor sees depend on the buffer and on where it stands, on nothing else. -/
theorem State.upcoming_congr (k : Nat) {s s' : State} (hb : s'.buf = s.buf) (hl : s'.bufLen = s.bufLen)
    (hp : s'.pos = s.pos) : State.upcoming k s' = State.upcoming k s := by
  induction k generalizing s s' with
  | zero => rfl
  | succ k ih =>
    have hr : s'.readByte s'.pos = s.readByte s.pos := by simp [State.readByte, hb, hl, hp]
    unfold State.upcoming State.nextByte
    rw [hr]
    cases s.readByte s.pos with
    | none => rfl
    | some b =>
      show b :: _ = b :: _
      congr 1
      exact ih hb hl (by simp [hp])

theorem State.window_congr {s s' : State} (hb : s'.buf = s.buf) (hl : s'.bufLen = s.bufLen) (hp : s'.pos = s.pos) :
    s'.window = s.window :=
  State.upcoming_congr maxInstrBytes hb hl hp

theorem State.windowAt_congr {s s' : State} (hb : s'.buf = s.buf) (hl : s'.bufLen = s.bufLen) (off : Nat) :
    s'.windowAt off = s.windowAt off :=
  State.upcoming_congr maxInstrBytes hb hl rfl

@[simp] theorem State.windowAt_pos (s : State) : s.windowAt s.pos = s.window := rfl

/-- How many bytes a cursor sees. -/
theorem State.upcoming_length (k : Nat) (s : State) : (State.upcoming k s).length = min k (s.bufLen - s.pos) := by
  induction k generalizing s with
  | zero => simp [State.upcoming]
  | succ k ih =>
    unfold State.upcoming State.nextByte
    by_cases h : s.pos < s.bufLen
    · rw [State.readByte_of_lt h]
      simp only [List.length_cons, ih]
      omega
    · rw [State.readByte_of_le (by omega)]
      simp only [List.length_nil]
      omega

theorem State.window_length (s : State) : s.window.length = min maxInstrBytes (s.bufLen - s.pos) :=
  State.upcoming_length maxInstrBytes s

/-! ### The two ends of an instruction -/

theorem State.truncate_raised (s : State) : Raised s s.truncate (.truncatedInstruction s.pos) := rfl

theorem State.emitted_emitted (s : State) (len : Nat) (v : Instruction) : Emitted s (s.emitted len v) len v := rfl

/-- Everything `perform` can do. -/
theorem perform_eq_next {len : Nat} {v : Instruction} {s t : State} (h : perform len v s = .next t) :
    (s.pos + len ≤ s.bufLen ∧ t = s.emitted len v) ∨ (s.bufLen < s.pos + len ∧ t = s.truncate) := by
  unfold perform at h
  split at h
  · cases h; exact .inl ⟨by assumption, rfl⟩
  · cases h; exact .inr ⟨by omega, rfl⟩

theorem perform_of_le {len : Nat} {v : Instruction} {s : State} (h : s.pos + len ≤ s.bufLen) :
    perform len v s = .next (s.emitted len v) := if_pos h

theorem perform_of_lt {len : Nat} {v : Instruction} {s : State} (h : s.bufLen < s.pos + len) :
    perform len v s = .next s.truncate := if_neg (by omega)

/-- Everything `unsupported` can do. -/
theorem unsupported_eq_next {s t : State} (h : unsupported s = .next t) :
    (s.policy = .lenientSkipOneByte ∧ t = s.emitted lenN .noop) ∨
    (s.policy = .strictFail ∧ t = (s.latch.advance lenN).raise (.unsupportedEncoding s.pos)) := by
  unfold unsupported at h
  split at h
  · cases h; exact .inr ⟨by assumption, rfl⟩
  · cases h; exact .inl ⟨by assumption, rfl⟩

theorem unsupported_lenient {s : State} (h : s.policy = .lenientSkipOneByte) :
    unsupported s = .next (s.emitted lenN .noop) := by
  simp [unsupported, h]

theorem unsupported_strict {s : State} (h : s.policy = .strictFail) :
    unsupported s = .next ((s.latch.advance lenN).raise (.unsupportedEncoding s.pos)) := by
  simp [unsupported, h]

/-- Every supported instruction is `perform` of its length and its value. -/
theorem exec_eq_perform {i : Instr} (s : State) (h : isNoop i = false) :
    exec i s = perform i.length (valueOf i) s := by
  cases i with
  | noop c => cases h
  | _ => rfl

/-- An unsupported encoding is `Unsupported()` once the bytes it looks at are there. -/
theorem exec_noop (c : NoopCause) (s : State) :
    exec (.noop c) s =
      if s.pos + (Instr.noop c).reach ≤ s.bufLen then unsupported s else .next s.truncate := rfl

theorem Instr.reach_of_not_noop {i : Instr} (h : isNoop i = false) : i.reach = i.length := by
  cases i with
  | noop c => cases h
  | _ => rfl

/-- Everything a meaning can do. -/
theorem exec_eq_next {i : Instr} {s t : State} (h : exec i s = .next t) :
    (s.pos + i.reach ≤ s.bufLen ∧ (isNoop i = true → s.policy = .lenientSkipOneByte) ∧
      t = s.emitted i.length (valueOf i)) ∨
    (s.pos + i.reach ≤ s.bufLen ∧ isNoop i = true ∧ s.policy = .strictFail ∧
      t = (s.latch.advance lenN).raise (.unsupportedEncoding s.pos)) ∨
    (s.bufLen < s.pos + i.reach ∧ t = s.truncate) := by
  cases hn : isNoop i with
  | false =>
    rw [exec_eq_perform s hn] at h
    rw [Instr.reach_of_not_noop hn]
    rcases perform_eq_next h with ⟨h1, h2⟩ | ⟨h1, h2⟩
    · exact .inl ⟨h1, by simp, h2⟩
    · exact .inr (.inr ⟨h1, h2⟩)
  | true =>
    cases i with
    | noop c =>
      rw [exec_noop] at h
      split at h
      · rename_i hle
        rcases unsupported_eq_next h with ⟨h1, h2⟩ | ⟨h1, h2⟩
        · exact .inl ⟨hle, fun _ => h1, h2⟩
        · exact .inr (.inl ⟨hle, rfl, h1, h2⟩)
      · cases h
        exact .inr (.inr ⟨by omega, rfl⟩)
    | _ => cases hn

/-- A meaning always answers a next state. -/
theorem exec_next (i : Instr) (s : State) : ∃ t, exec i s = .next t := by
  cases hn : isNoop i with
  | false =>
    rw [exec_eq_perform s hn]
    unfold perform
    split <;> exact ⟨_, rfl⟩
  | true =>
    cases i with
    | noop c =>
      rw [exec_noop]
      split
      · unfold unsupported
        split <;> exact ⟨_, rfl⟩
      · exact ⟨_, rfl⟩
    | _ => cases hn

/-! ### The step -/

/-- Everything `fetch` can answer. -/
theorem fetch_cases (s : State) :
    (s.status = .done ∧ fetch s = .over .finished) ∨
    (∃ e, s.status = .fault e ∧ fetch s = .over (.aborted e)) ∨
    (s.status = .running ∧ s.pos = s.bufLen ∧ fetch s = .atEnd) ∨
    (s.status = .running ∧ s.pos ≠ s.bufLen ∧ ∃ i c, decode s.window = .got i c ∧ fetch s = .run i) ∨
    (s.status = .running ∧ s.pos ≠ s.bufLen ∧ ∃ r, decode s.window = .stop r ∧ fetch s = .cut) := by
  unfold fetch
  cases hs : s.status with
  | done => exact .inl ⟨rfl, rfl⟩
  | fault e => exact .inr (.inl ⟨e, rfl, rfl⟩)
  | running =>
    refine .inr (.inr ?_)
    by_cases hp : s.pos = s.bufLen
    · exact .inl ⟨rfl, hp, by simp [hp]⟩
    · right
      cases hd : decode s.window with
      | got i c => exact .inl ⟨rfl, hp, i, c, rfl, by simp [hp]⟩
      | stop r => exact .inr ⟨rfl, hp, r, rfl, by simp [hp]⟩

/-- Everything a step that answers a next state can have done. -/
theorem step_eq_next {s t : State} (h : step s = .next t) :
    s.status = .running ∧
    ((s.pos = s.bufLen ∧ t = s.finish) ∨
     (s.pos ≠ s.bufLen ∧ ∃ i c, decode s.window = .got i c ∧ exec i s = .next t) ∨
     (s.pos ≠ s.bufLen ∧ ∃ r, decode s.window = .stop r ∧ t = s.truncate)) := by
  unfold step at h
  rcases fetch_cases s with ⟨hs, hf⟩ | ⟨e, hs, hf⟩ | ⟨hs, hp, hf⟩ | ⟨hs, hp, i, c, hd, hf⟩ | ⟨hs, hp, r, hd, hf⟩
  · rw [hf] at h; cases h
  · rw [hf] at h; cases h
  · rw [hf] at h; cases h; exact ⟨hs, .inl ⟨hp, rfl⟩⟩
  · rw [hf] at h; exact ⟨hs, .inr (.inl ⟨hp, i, c, hd, h⟩)⟩
  · rw [hf] at h; cases h; exact ⟨hs, .inr (.inr ⟨hp, r, hd, rfl⟩)⟩

/-- The step of a running state, by what stands at the cursor. -/
theorem step_running {s : State} (hs : s.status = .running) :
    step s = if s.pos = s.bufLen then .next s.finish
      else match decode s.window with
        | .got i _ => exec i s
        | .stop _ => .next s.truncate := by
  unfold step fetch
  rw [hs]
  by_cases hp : s.pos = s.bufLen
  · simp [hp]
  · cases decode s.window <;> simp [hp]

end Sys2Proof.Machine
end

