-- ==== Sys2Proof/Laws/PerInstr.lean ====
section
/-! SUPPORT. Statements for every instruction as syntax, one lemma per constructor. -/

namespace Sys2Proof.Laws

/-- The length of 30_encoding.md R65 is the number of bytes of the encoding. -/
def Length.Statement (i : Instr) : Prop := (encode i).length = i.length

theorem Length.movRmR (d w : Bool) (reg : BitVec 3) (rm : RmField) : Length.Statement (.movRmR d w reg rm) := by
  simp [Length.Statement, encode, encodeRmR, Instr.length, lenRM]; omega

theorem Length.movRmImm (x : BitVec 3) (rm : RmField) (imm : ImmField) : Length.Statement (.movRmImm x rm imm) := by
  simp [Length.Statement, encode, Instr.length, lenMI]; omega

theorem Length.movRImm (r : BitVec 3) (imm : ImmField) : Length.Statement (.movRImm r imm) := by
  simp [Length.Statement, encode, Instr.length, lenImm]; omega

theorem Length.movAccMem (w : Bool) (addr : Word) : Length.Statement (.movAccMem w addr) := rfl

theorem Length.movMemAcc (w : Bool) (addr : Word) : Length.Statement (.movMemAcc w addr) := rfl

theorem Length.addRmR (d w : Bool) (reg : BitVec 3) (rm : RmField) : Length.Statement (.addRmR d w reg rm) := by
  simp [Length.Statement, encode, encodeRmR, Instr.length, lenRM]; omega

theorem Length.subRmR (d w : Bool) (reg : BitVec 3) (rm : RmField) : Length.Statement (.subRmR d w reg rm) := by
  simp [Length.Statement, encode, encodeRmR, Instr.length, lenRM]; omega

theorem Length.cmpRmR (d w : Bool) (reg : BitVec 3) (rm : RmField) : Length.Statement (.cmpRmR d w reg rm) := by
  simp [Length.Statement, encode, encodeRmR, Instr.length, lenRM]; omega

theorem Length.addRmImm (rm : RmField) (imm : GroupImm) : Length.Statement (.addRmImm rm imm) := by
  simp [Length.Statement, encode, encodeGroup, Instr.length, lenG1]; omega

theorem Length.subRmImm (rm : RmField) (imm : GroupImm) : Length.Statement (.subRmImm rm imm) := by
  simp [Length.Statement, encode, encodeGroup, Instr.length, lenG1]; omega

theorem Length.cmpRmImm (rm : RmField) (imm : GroupImm) : Length.Statement (.cmpRmImm rm imm) := by
  simp [Length.Statement, encode, encodeGroup, Instr.length, lenG1]; omega

theorem Length.addAccImm (imm : ImmField) : Length.Statement (.addAccImm imm) := by
  simp [Length.Statement, encode, Instr.length, lenImm]; omega

theorem Length.subAccImm (imm : ImmField) : Length.Statement (.subAccImm imm) := by
  simp [Length.Statement, encode, Instr.length, lenImm]; omega

theorem Length.cmpAccImm (imm : ImmField) : Length.Statement (.cmpAccImm imm) := by
  simp [Length.Statement, encode, Instr.length, lenImm]; omega

theorem Length.jo (inc : Byte) : Length.Statement (.jo inc) := rfl

theorem Length.jno (inc : Byte) : Length.Statement (.jno inc) := rfl

theorem Length.jb (inc : Byte) : Length.Statement (.jb inc) := rfl

theorem Length.jnb (inc : Byte) : Length.Statement (.jnb inc) := rfl

theorem Length.je (inc : Byte) : Length.Statement (.je inc) := rfl

theorem Length.jne (inc : Byte) : Length.Statement (.jne inc) := rfl

theorem Length.jbe (inc : Byte) : Length.Statement (.jbe inc) := rfl

theorem Length.jnbe (inc : Byte) : Length.Statement (.jnbe inc) := rfl

theorem Length.js (inc : Byte) : Length.Statement (.js inc) := rfl

theorem Length.jns (inc : Byte) : Length.Statement (.jns inc) := rfl

theorem Length.jp (inc : Byte) : Length.Statement (.jp inc) := rfl

theorem Length.jnp (inc : Byte) : Length.Statement (.jnp inc) := rfl

theorem Length.jl (inc : Byte) : Length.Statement (.jl inc) := rfl

theorem Length.jnl (inc : Byte) : Length.Statement (.jnl inc) := rfl

theorem Length.jle (inc : Byte) : Length.Statement (.jle inc) := rfl

theorem Length.jnle (inc : Byte) : Length.Statement (.jnle inc) := rfl

theorem Length.loopnz (inc : Byte) : Length.Statement (.loopnz inc) := rfl

theorem Length.loopz (inc : Byte) : Length.Statement (.loopz inc) := rfl

theorem Length.loop (inc : Byte) : Length.Statement (.loop inc) := rfl

theorem Length.jcxz (inc : Byte) : Length.Statement (.jcxz inc) := rfl

theorem Length.noop (cause : NoopCause) : Length.Statement (.noop cause) := by
  cases cause <;> rfl

end Sys2Proof.Laws
end

