-- ==== Sys2Proof/Tests/Slice0.lean ====
section
/-! SUPPORT. The model's own tests: expected results are those of spec/95_test_vectors.md (named S1 to S14, V1 to V9,
P1 to P4 there) or worked out from the rules. Then the witnesses: for each statement of Obligations.lean that has
hypotheses, concrete data that meet them together. -/

namespace Sys2Proof.Tests

open Sys2Proof.Machine

/-! ### Helpers -/

/-- A run about to begin, under the lenient policy. -/
abbrev lenient (bytes : List Byte) : State := State.load bytes .lenientSkipOneByte

/-- The same under the strict policy. -/
abbrev strict (bytes : List Byte) : State := State.load bytes .strictFail

/-- The next state, where the answer is one. -/
def nextOf (r : Host.Outcome State Fault Refusal) : Option State :=
  match r with
  | .next t => some t
  | .fault _ => none
  | .refused _ => none

/-- The fault, where the answer is one. -/
def faultOf (r : Host.Outcome State Fault Refusal) : Option Fault :=
  match r with
  | .next _ => none
  | .fault f => some f
  | .refused _ => none

/-- The text of a line that the formatter gives. -/
def lineOf (v : Instruction) : Option Text :=
  match formatLine defaultNoopText v with
  | .ok line => some line
  | .error _ => none

/-- One step on exactly these bytes emits `v`, leaves the cursor behind them and the run running, under either policy;
and the line of `v` is `line`. -/
abbrev runsTo (bytes : List Byte) (v : Instruction) (line : String) : Prop :=
  (∀ s ∈ [lenient bytes, strict bytes],
    nextOf (step s) = some { s with start := 0, pos := bytes.length, out := [v] }) ∧ lineOf v = some line.toList

/-- One step on exactly these bytes raises `e` with nothing emitted. -/
abbrev raises (s : State) (e : DecodeError) : Prop :=
  (nextOf (step s)).map (fun t => (t.start, t.out, t.status)) = some (s.pos, s.out, .fault e)

/-! ### Ill-formed terms are refused -/

/-- mod = 00 with r/m = 110 is the direct address (R63), so it is no base. -/
theorem test_wf_refuses_base_110 :
    (Instr.addRmR false false 0#3 (.base 0b110#3)).wf = false ∧ (Instr.movRmImm 0#3 (.base 0b110#3) (.byte 0#8)).wf = false ∧
    (Instr.cmpRmImm (.base 0b110#3) (.signed 0#8)).wf = false := by decide

/-- A recognised leading byte is no noop (R66). -/
theorem test_wf_refuses_recognised_noop :
    (Instr.noop (.leading 0x89#8)).wf = false ∧ (Instr.noop (.leading 0xE3#8)).wf = false := by decide

/-- A mode byte with the sub-field 000, 101 or 111 is no noop (R68). -/
theorem test_wf_refuses_supported_group :
    (Instr.noop (.group false true 0xC3#8)).wf = false ∧ (Instr.noop (.group true true 0x2F#8)).wf = false ∧
    (Instr.noop (.group false false 0x3E#8)).wf = false := by decide

/-- The other terms of each kind are well formed. -/
theorem test_wf_accepts :
    (Instr.addRmR false false 0#3 (.base 0b111#3)).wf = true ∧ (Instr.noop (.leading 0x90#8)).wf = true ∧
    (Instr.noop (.group false false 0xC8#8)).wf = true ∧ (Instr.je 0#8).wf = true := by decide

/-! ### The single extractor and the opcode map -/

/-- V9. -/
theorem test_field :
    field 0x89#8 0 6 = 0b100010#6 ∧ field 0x89#8 6 1 = 0#1 ∧ field 0x89#8 7 1 = 1#1 ∧ field 0xD9#8 0 2 = 3#2 ∧
    field 0xD9#8 2 3 = 3#3 ∧ field 0xD9#8 5 3 = 1#3 ∧ field 0xB9#8 4 1 = 1#1 ∧ field 0xB9#8 5 3 = 1#3 ∧
    field 0xFF#8 0 8 = 255#8 ∧ field 0x80#8 0 1 = 1#1 ∧ field 0x01#8 7 1 = 1#1 := by decide

/-- R66: 68 leading bytes are recognised and 188 are not. -/
theorem test_opcode_map_count :
    ((List.range 256).filter (fun n => recognisedLead (BitVec.ofNat 8 n))).length = 68 := by decide

/-- The table's numbering (R70): the leading byte is the most significant of the row's bits. -/
theorem test_table_word :
    decodeTableWord 16 0x8800 = some (.movRmR false false 0#3 (.base 0#3)) ∧
    decodeTableWord 8 0xB0 = some (.movRImm 0#3 (.byte 0#8)) ∧ decodeTableWord 16 0x8028 = some (.subRmImm (.base 0#3) (.byte false 0#8)) ∧
    decodeTableWord 8 0xE3 = some (.jcxz 0#8) := by decide

/-- `step` runs the word that `withFetchWord` placed, first after reset. -/
theorem test_fetch_word :
    (nextOf (step (State.reset.withFetchWord 16 0x81F8))).map (fun t => (t.pos, t.out)) =
      some (4, [.cmpImmediate (.word 0#16) ⟨false, some .ax, none, none⟩]) := by decide

/-! ### Every constructor: its decoding from a word of the spec, and one step -/

/-- S2; P1. -/
theorem test_decode_mov_rm_r : decode [0x89#8, 0xD9#8] = .got (.movRmR false true 0b011#3 (.register 0b001#3)) [] := by decide

/-- S2; P1. -/
theorem test_step_mov_rm_r : runsTo [0x8A#8, 0x80#8, 0x87#8, 0x13#8] (.mov ⟨true, some .bx, some .si, some 4999#16⟩ ⟨false, some .al, none, none⟩)
    "mov al, [bx + si + 4999]" := by decide

/-- V4. -/
theorem test_decode_mov_rm_imm : decode [0xC6#8, 0x38#8, 0x80#8] = .got (.movRmImm 0b111#3 (.base 0b000#3) (.byte 0x80#8)) [] := by decide

/-- V4. -/
theorem test_step_mov_rm_imm : runsTo [0xC7#8, 0x47#8, 0x05#8, 0x0C#8, 0x00#8] (.movImmediate (.word 12#16) ⟨true, some .bx, none, some 5#16⟩)
    "mov [bx + 5], word 12" := by decide

/-- V4. -/
theorem test_decode_mov_r_imm : decode [0xBC#8, 0x00#8, 0x80#8] = .got (.movRImm 0b100#3 (.word 0x8000#16)) [] := by decide

/-- V4. -/
theorem test_step_mov_r_imm : runsTo [0xB5#8, 0xF4#8] (.movImmediate (.byte 0xF4#8) ⟨false, some .ch, none, none⟩)
    "mov ch, -12" := by decide

/-- V4. -/
theorem test_decode_mov_acc_mem : decode [0xA1#8, 0xE8#8, 0x03#8] = .got (.movAccMem true 1000#16) [] := by decide

/-- V4. -/
theorem test_step_mov_acc_mem : runsTo [0xA0#8, 0x10#8, 0x00#8] (.mov ⟨true, none, none, some 16#16⟩ ⟨false, some .al, none, none⟩)
    "mov al, [16]" := by decide

/-- V4. -/
theorem test_decode_mov_mem_acc : decode [0xA3#8, 0x00#8, 0x00#8] = .got (.movMemAcc true 0#16) [] := by decide

/-- V4. -/
theorem test_step_mov_mem_acc : runsTo [0xA2#8, 0xFF#8, 0xFF#8] (.mov ⟨false, some .al, none, none⟩ ⟨true, none, none, some 0xFFFF#16⟩)
    "mov [65535], al" := by decide

/-- V5. -/
theorem test_decode_add_rm_r : decode [0x03#8, 0x18#8] = .got (.addRmR true true 0b011#3 (.base 0b000#3)) [] := by decide

/-- V5. -/
theorem test_step_add_rm_r : runsTo [0x02#8, 0x46#8, 0x00#8] (.add ⟨true, some .bp, none, some 0#16⟩ ⟨false, some .al, none, none⟩)
    "add al, [bp]" := by decide

/-- V5. -/
theorem test_decode_sub_rm_r : decode [0x29#8, 0xD8#8] = .got (.subRmR false true 0b011#3 (.register 0b000#3)) [] := by decide

/-- V5. -/
theorem test_step_sub_rm_r : runsTo [0x2A#8, 0x07#8] (.sub ⟨true, some .bx, none, none⟩ ⟨false, some .al, none, none⟩)
    "sub al, [bx]" := by decide

/-- V5. -/
theorem test_decode_cmp_rm_r : decode [0x3B#8, 0x5E#8, 0x00#8] = .got (.cmpRmR true true 0b011#3 (.disp8 0b110#3 0#8)) [] := by decide

/-- V5. -/
theorem test_step_cmp_rm_r : runsTo [0x38#8, 0x0E#8, 0xE8#8, 0x03#8] (.cmp ⟨false, some .cl, none, none⟩ ⟨true, none, none, some 1000#16⟩)
    "cmp [1000], cl" := by decide

/-- V5. -/
theorem test_decode_add_rm_imm : decode [0x82#8, 0xC3#8, 0x05#8] = .got (.addRmImm (.register 0b011#3) (.byte true 5#8)) [] := by decide

/-- V5. -/
theorem test_step_add_rm_imm : runsTo [0x81#8, 0x82#8, 0xE8#8, 0x03#8, 0x1D#8, 0x00#8] (.addImmediate (.word 29#16) ⟨true, some .bp, some .si, some 1000#16⟩)
    "add [bp + si + 1000], word 29" := by decide

/-- V5. -/
theorem test_decode_sub_rm_imm : decode [0x83#8, 0x29#8, 0x22#8] = .got (.subRmImm (.base 0b001#3) (.signed 0x22#8)) [] := by decide

/-- V5. -/
theorem test_step_sub_rm_imm : runsTo [0x82#8, 0xE9#8, 0xFF#8] (.subImmediate (.byte 0xFF#8) ⟨false, some .cl, none, none⟩)
    "sub cl, -1" := by decide

/-- V5. -/
theorem test_decode_cmp_rm_imm : decode [0x80#8, 0x7F#8, 0x22#8, 0x80#8] = .got (.cmpRmImm (.disp8 0b111#3 0x22#8) (.byte false 0x80#8)) [] := by decide

/-- V5. -/
theorem test_step_cmp_rm_imm : runsTo [0x83#8, 0x3E#8, 0xFF#8, 0xFF#8, 0xFF#8] (.cmpImmediate (.word 0xFFFF#16) ⟨true, none, none, some 0xFFFF#16⟩)
    "cmp [65535], word -1" := by decide

/-- V5. -/
theorem test_decode_add_acc_imm : decode [0x04#8, 0x09#8] = .got (.addAccImm (.byte 9#8)) [] := by decide

/-- V5. -/
theorem test_step_add_acc_imm : runsTo [0x05#8, 0xE8#8, 0x03#8] (.addImmediate (.word 1000#16) ⟨false, some .ax, none, none⟩)
    "add ax, 1000" := by decide

/-- V5. -/
theorem test_decode_sub_acc_imm : decode [0x2D#8, 0xE8#8, 0x03#8] = .got (.subAccImm (.word 1000#16)) [] := by decide

/-- V5. -/
theorem test_step_sub_acc_imm : runsTo [0x2C#8, 0x09#8] (.subImmediate (.byte 9#8) ⟨false, some .al, none, none⟩)
    "sub al, 9" := by decide

/-- V5. -/
theorem test_decode_cmp_acc_imm : decode [0x3C#8, 0xF7#8] = .got (.cmpAccImm (.byte 0xF7#8)) [] := by decide

/-- V5. -/
theorem test_step_cmp_acc_imm : runsTo [0x3D#8, 0x00#8, 0x80#8] (.cmpImmediate (.word 0x8000#16) ⟨false, some .ax, none, none⟩)
    "cmp ax, -32768" := by decide

/-- V6. -/
theorem test_decode_jo : decode [0x70#8, 0x05#8] = .got (.jo 0x05#8) [] := by decide

/-- V6. -/
theorem test_step_jo : runsTo [0x70#8, 0x05#8] (.jo 0x05#8) "jo 5" := by decide

/-- V6. -/
theorem test_decode_jno : decode [0x71#8, 0xFB#8] = .got (.jno 0xFB#8) [] := by decide

/-- V6. -/
theorem test_step_jno : runsTo [0x71#8, 0xFB#8] (.jno 0xFB#8) "jno -5" := by decide

/-- V6. -/
theorem test_decode_jb : decode [0x72#8, 0x02#8] = .got (.jb 0x02#8) [] := by decide

/-- V6. -/
theorem test_step_jb : runsTo [0x72#8, 0x02#8] (.jb 0x02#8) "jb 2" := by decide

/-- V6. -/
theorem test_decode_jnb : decode [0x73#8, 0xFE#8] = .got (.jnb 0xFE#8) [] := by decide

/-- V6. -/
theorem test_step_jnb : runsTo [0x73#8, 0xFE#8] (.jnb 0xFE#8) "jnb -2" := by decide

/-- V6. -/
theorem test_decode_je : decode [0x74#8, 0x00#8] = .got (.je 0x00#8) [] := by decide

/-- V6. -/
theorem test_step_je : runsTo [0x74#8, 0x00#8] (.je 0x00#8) "je 0" := by decide

/-- V6. -/
theorem test_decode_jne : decode [0x75#8, 0xFA#8] = .got (.jne 0xFA#8) [] := by decide

/-- V6. -/
theorem test_step_jne : runsTo [0x75#8, 0xFA#8] (.jne 0xFA#8) "jne -6" := by decide

/-- V6. -/
theorem test_decode_jbe : decode [0x76#8, 0x7F#8] = .got (.jbe 0x7F#8) [] := by decide

/-- V6. -/
theorem test_step_jbe : runsTo [0x76#8, 0x7F#8] (.jbe 0x7F#8) "jbe 127" := by decide

/-- V6. -/
theorem test_decode_jnbe : decode [0x77#8, 0x80#8] = .got (.jnbe 0x80#8) [] := by decide

/-- V6. -/
theorem test_step_jnbe : runsTo [0x77#8, 0x80#8] (.jnbe 0x80#8) "jnbe -128" := by decide

/-- V6. -/
theorem test_decode_js : decode [0x78#8, 0x10#8] = .got (.js 0x10#8) [] := by decide

/-- V6. -/
theorem test_step_js : runsTo [0x78#8, 0x10#8] (.js 0x10#8) "js 16" := by decide

/-- V6. -/
theorem test_decode_jns : decode [0x79#8, 0xF0#8] = .got (.jns 0xF0#8) [] := by decide

/-- V6. -/
theorem test_step_jns : runsTo [0x79#8, 0xF0#8] (.jns 0xF0#8) "jns -16" := by decide

/-- V6. -/
theorem test_decode_jp : decode [0x7A#8, 0x01#8] = .got (.jp 0x01#8) [] := by decide

/-- V6. -/
theorem test_step_jp : runsTo [0x7A#8, 0x01#8] (.jp 0x01#8) "jp 1" := by decide

/-- V6. -/
theorem test_decode_jnp : decode [0x7B#8, 0xFF#8] = .got (.jnp 0xFF#8) [] := by decide

/-- V6. -/
theorem test_step_jnp : runsTo [0x7B#8, 0xFF#8] (.jnp 0xFF#8) "jnp -1" := by decide

/-- V6. -/
theorem test_decode_jl : decode [0x7C#8, 0x0A#8] = .got (.jl 0x0A#8) [] := by decide

/-- V6. -/
theorem test_step_jl : runsTo [0x7C#8, 0x0A#8] (.jl 0x0A#8) "jl 10" := by decide

/-- V6. -/
theorem test_decode_jnl : decode [0x7D#8, 0xF6#8] = .got (.jnl 0xF6#8) [] := by decide

/-- V6. -/
theorem test_step_jnl : runsTo [0x7D#8, 0xF6#8] (.jnl 0xF6#8) "jnl -10" := by decide

/-- V6. -/
theorem test_decode_jle : decode [0x7E#8, 0x64#8] = .got (.jle 0x64#8) [] := by decide

/-- V6. -/
theorem test_step_jle : runsTo [0x7E#8, 0x64#8] (.jle 0x64#8) "jle 100" := by decide

/-- V6. -/
theorem test_decode_jnle : decode [0x7F#8, 0x9C#8] = .got (.jnle 0x9C#8) [] := by decide

/-- V6. -/
theorem test_step_jnle : runsTo [0x7F#8, 0x9C#8] (.jnle 0x9C#8) "jnle -100" := by decide

/-- V6. -/
theorem test_decode_loopnz : decode [0xE0#8, 0xFC#8] = .got (.loopnz 0xFC#8) [] := by decide

/-- V6. -/
theorem test_step_loopnz : runsTo [0xE0#8, 0xFC#8] (.loopnz 0xFC#8) "loopnz -4" := by decide

/-- V6. -/
theorem test_decode_loopz : decode [0xE1#8, 0xFC#8] = .got (.loopz 0xFC#8) [] := by decide

/-- V6. -/
theorem test_step_loopz : runsTo [0xE1#8, 0xFC#8] (.loopz 0xFC#8) "loopz -4" := by decide

/-- V6. -/
theorem test_decode_loop : decode [0xE2#8, 0xFB#8] = .got (.loop 0xFB#8) [] := by decide

/-- V6. -/
theorem test_step_loop : runsTo [0xE2#8, 0xFB#8] (.loop 0xFB#8) "loop -5" := by decide

/-- V6. -/
theorem test_decode_jcxz : decode [0xE3#8, 0x03#8] = .got (.jcxz 0x03#8) [] := by decide

/-- V6. -/
theorem test_step_jcxz : runsTo [0xE3#8, 0x03#8] (.jcxz 0x03#8) "jcxz 3" := by decide

/-- V7: a byte that is not recognised, and a group byte with the sub-field 100, whose mode byte is left. -/
theorem test_decode_noop :
    decode [0x2E#8, 0x8B#8, 0x07#8] = .got (.noop (.leading 0x2E#8)) [0x8B#8, 0x07#8] ∧
    decode [0x80#8, 0x20#8] = .got (.noop (.group false false 0x20#8)) [0x20#8] := by decide

/-- V7: one byte consumed and a Noop under the lenient policy, the error under the strict one. -/
theorem test_step_noop :
    (∀ bytes ∈ [[0x0F#8, 0x89#8, 0xD9#8], [0x80#8, 0x20#8]],
      nextOf (step (lenient bytes)) = some { lenient bytes with pos := 1, out := [.noop] } ∧
      raises (strict bytes) (.unsupportedEncoding 0)) ∧
    lineOf .noop = some "noop".toList := by decide

/-! ### Truncation, the end of the stream, the end of the run -/

/-- V8, under either policy: a mode byte, a displacement, an address, an immediate, an increment is missing. -/
theorem test_truncated :
    ∀ bytes ∈ [[0x89#8], [0x80#8], [0xC6#8, 0x06#8, 0xE8#8], [0xC6#8, 0x4F#8, 0x05#8], [0x81#8, 0xC3#8, 0xFF#8],
        [0xA1#8, 0xE8#8], [0xB8#8, 0x01#8], [0xB0#8], [0x05#8, 0x01#8], [0x74#8], [0x8B#8, 0x80#8, 0x34#8]],
      raises (lenient bytes) (.truncatedInstruction 0) ∧ raises (strict bytes) (.truncatedInstruction 0) := by decide

/-- V8, the nearest complete input. -/
theorem test_nearest_complete : runsTo [0xC6#8, 0x4F#8, 0x05#8, 0x00#8]
    (.movImmediate (.byte 0#8) ⟨true, some .bx, none, some 5#16⟩) "mov [bx + 5], byte 0" := by decide

/-- R43: the empty buffer; R25: no step after the end. -/
theorem test_end_of_run :
    nextOf (step (lenient [])) = some { lenient [] with status := .done } ∧
    faultOf (step { lenient [] with status := .done }) = some .finished ∧
    faultOf (step { lenient [] with status := .fault (.truncatedInstruction 0) }) =
      some (.aborted (.truncatedInstruction 0)) := by decide

/-- V7, two steps and the result. -/
theorem test_resynchronise :
    decodeBuffer [0x0F#8, 0x89#8, 0xD9#8] .lenientSkipOneByte =
      some (.ok [.noop, .mov ⟨false, some .bx, none, none⟩ ⟨false, some .cx, none, none⟩]) := by decide

/-- V8: the offset is that of the incomplete instruction, and what came before it is no part of the result. -/
theorem test_truncated_second :
    decodeBuffer [0x89#8, 0xD9#8, 0xB8#8, 0x01#8] .strictFail = some (.error (.truncatedInstruction 2)) := by decide

/-! ### The formatter -/

/-- V3: signs and zeros of a displacement, a direct address shown unsigned. -/
theorem test_location_text :
    [(⟨true, some .bx, some .si, some 0#16⟩, "[bx + si]"), (⟨true, some .bx, some .si, some 0xFFFB#16⟩, "[bx + si - 5]"),
      (⟨true, some .bx, some .si, some 0x8000#16⟩, "[bx + si - 32768]"), (⟨true, none, none, some 0#16⟩, "[0]"),
      (⟨true, none, none, some 0x8000#16⟩, "[32768]")].all
      (fun p => match locText p.1 with
        | .ok x => x == String.toList p.2
        | .error _ => false) = true := by decide

/-- R225, R243: a hand-built operand without register and displacement gets no text. -/
theorem test_formatter_refuses :
    [(⟨true, none, none, none⟩ : Location), ⟨false, none, none, some 1#16⟩].all
      (fun l => match locText l with
        | .ok _ => false
        | .error r => r == Refusal.invalidDirectAddressing) = true := by decide

/-- S6, S7: the size prefix before an immediate for memory only. -/
theorem test_prefix_text :
    lineOf (.movImmediate (.byte 12#8) ⟨true, some .bx, none, none⟩) = some "mov [bx], byte 12".toList ∧
    lineOf (.movImmediate (.byte 12#8) ⟨false, some .cl, none, none⟩) = some "mov cl, 12".toList := by decide

/-! ### Witnesses: the hypotheses of each statement, met together -/

/-- A running state that no run from reset begins in: the cursor stands at 2, something is emitted. -/
abbrev midway (bytes : List Byte) (policy : Policy) : State :=
  { State.load bytes policy with start := 1, pos := 2, out := [.noop, .noop] }

/-- For DecodeOfEncode: a well-formed instruction of each kind of encoding. -/
theorem witness_decodeOfEncode :
    ∀ i ∈ [Instr.movRmR true false 0b111#3 (.disp16 0b110#3 0x8000#16), .movRmImm 0b101#3 (.direct 0xFFFF#16) (.word 0#16),
        .cmpRmImm (.base 0b111#3) (.signed 0x80#8), .loop 0x80#8, .noop (.leading 0xFF#8), .noop (.group true true 0xF7#8)],
      i.wf = true := by decide

/-- For EncodeOfDecode: bytes that decode, with bytes left. -/
theorem witness_encodeOfDecode :
    decode [0x81#8, 0x82#8, 0xE8#8, 0x03#8, 0x1D#8, 0x00#8, 0x90#8] =
      .got (.addRmImm (.disp16 0b010#3 1000#16) (.word 29#16)) [0x90#8] := by decide

/-- For EachPatternDecidesAlone: a least and a greatest byte of each test. -/
theorem witness_eachPattern :
    0x88#8 &&& 0xFC#8 = 0x88#8 ∧ 0x8B#8 &&& 0xFC#8 = 0x88#8 ∧ 0xC7#8 &&& 0xFE#8 = 0xC6#8 ∧ 0xB0#8 &&& 0xF0#8 = 0xB0#8 ∧
    0xBF#8 &&& 0xF0#8 = 0xB0#8 ∧ 0xA1#8 &&& 0xFE#8 = 0xA0#8 ∧ 0xA2#8 &&& 0xFE#8 = 0xA2#8 ∧ 0x03#8 &&& 0xFC#8 = 0x00#8 ∧
    0x2B#8 &&& 0xFC#8 = 0x28#8 ∧ 0x38#8 &&& 0xFC#8 = 0x38#8 ∧ 0x83#8 &&& 0xFC#8 = 0x80#8 ∧ 0x04#8 &&& 0xFE#8 = 0x04#8 ∧
    0x2D#8 &&& 0xFE#8 = 0x2C#8 ∧ 0x3C#8 &&& 0xFE#8 = 0x3C#8 ∧ recognisedLead 0x06#8 = false ∧
    recognisedLead 0xFF#8 = false := by decide

/-- For FirstTwoBytesTellTheLength, the first clause: the shortest and the longest instruction. -/
theorem witness_firstTwoBytes_decode :
    decode (0x90#8 :: []) = .got (.noop (.leading 0x90#8)) [] ∧
    decode (0xC7#8 :: [0x06#8, 0xE8#8, 0x03#8, 0x0C#8, 0x00#8]) = .got (.movRmImm 0#3 (.direct 1000#16) (.word 12#16)) [] := by
  decide

/-- For FirstTwoBytesTellTheLength, the second clause: a step after which the run still runs. -/
theorem witness_firstTwoBytes_step :
    ∃ t, step (midway [0#8, 0#8, 0x75#8, 0xFA#8] .strictFail) = .next t ∧ t.status = .running ∧ t.pos = 4 :=
  ⟨_, rfl, rfl, rfl⟩

/-- For SixBytesSuffice: more than six bytes that decode, and bytes that do not. -/
theorem witness_sixBytes :
    decode [0x89#8, 0xD9#8, 0#8, 0#8, 0#8, 0#8, 0#8, 0#8] =
      .got (.movRmR false true 0b011#3 (.register 0b001#3)) [0#8, 0#8, 0#8, 0#8, 0#8, 0#8] ∧
    decode [0xA1#8, 0xE8#8] = .stop .truncated ∧ decode [] = .stop .endOfStream := by decide

/-- For RmOperandCases: codes other than 110, the least and the greatest. -/
theorem witness_rmOperand : (0b000#3 ≠ 0b110#3) ∧ (0b111#3 ≠ 0b110#3) := by decide

/-- For ImmediateWithoutSignBit: a reader that answers and one that stops, for either `w`. -/
theorem witness_immediateWithoutSign :
    readImm false [0x80#8] = .got (.byte 0x80#8) [] ∧ readImm true [0xE8#8, 0x03#8] = .got (.word 1000#16) [] ∧
    readImm false [] = .stop .truncated ∧ readImm true [0xE8#8] = .stop .truncated := by decide

/-- For BuiltLocationsAreWellShaped: a location of each builder, one of them without a register. -/
theorem witness_builtLocations :
    (∃ r w, (⟨false, some .bh, none, none⟩ : Location) = regOperand r w) ∧
    (∃ rm w, (⟨true, some .bp, some .di, some 0x8000#16⟩ : Location) = rmOperand rm w) ∧
    (∃ a, (⟨true, none, none, some 0xFFFF#16⟩ : Location) = directOperand a ∧
      (⟨true, none, none, some 0xFFFF#16⟩ : Location).register = none) :=
  ⟨⟨0b111#3, false, rfl⟩, ⟨.disp16 0b011#3 0x8000#16, true, rfl⟩, ⟨0xFFFF#16, rfl, rfl⟩⟩

/-- For the statements on results: r/m fields of every kind that are well formed. -/
theorem witness_results_wf :
    ∀ rm ∈ [RmField.base 0b000#3, .base 0b111#3, .direct 0#16, .disp8 0b110#3 0x80#8, .disp16 0b000#3 0x7FFF#16,
        .register 0b111#3], rm.wf = true := by decide

/-- For the two hypotheses of EmitsOrTruncates: a state in which four bytes are there to the last, and one that lacks
one. -/
theorem witness_results_fit :
    (midway [0#8, 0#8, 0x8B#8, 0x80#8, 0x34#8, 0x12#8] .strictFail).pos + 4 ≤
      (midway [0#8, 0#8, 0x8B#8, 0x80#8, 0x34#8, 0x12#8] .strictFail).bufLen ∧
    (midway [0#8, 0#8, 0x8B#8, 0x80#8, 0x34#8] .strictFail).bufLen <
      (midway [0#8, 0#8, 0x8B#8, 0x80#8, 0x34#8] .strictFail).pos + 4 := by decide

/-- For UnsupportedLeadingByte: the byte, the room, both policies. -/
theorem witness_unsupportedLeading :
    recognisedLead 0x0F#8 = false ∧
    ((lenient [0x0F#8]).pos < (lenient [0x0F#8]).bufLen ∧ (lenient [0x0F#8]).policy = .lenientSkipOneByte) ∧
    ((strict [0x0F#8]).pos < (strict [0x0F#8]).bufLen ∧ (strict [0x0F#8]).policy = .strictFail) := by decide

/-- For UnsupportedGroupSubfield: the sub-fields 001 and 110, with and without room for the mode byte. -/
theorem witness_unsupportedGroup :
    supportedSub ((0xC8#8).toNat / 8 % 8) = false ∧ supportedSub ((0x36#8).toNat / 8 % 8) = false ∧
    (lenient [0x80#8, 0xC8#8]).pos + 1 < (lenient [0x80#8, 0xC8#8]).bufLen ∧
    (strict [0x80#8]).bufLen ≤ (strict [0x80#8]).pos + 1 := by decide

/-- For EveryInstructionCompletes: a supported instruction and a Noop that peeks, with exactly the bytes they need. -/
theorem witness_everyInstruction :
    ((strict [0x75#8, 0xFA#8]).pos + (Instr.jne 0xFA#8).reach ≤ (strict [0x75#8, 0xFA#8]).bufLen ∧
      (isNoop (.jne 0xFA#8) = true → (strict [0x75#8, 0xFA#8]).policy = .lenientSkipOneByte)) ∧
    ((lenient [0x80#8, 0xC8#8]).pos + (Instr.noop (.group false false 0xC8#8)).reach ≤ (lenient [0x80#8, 0xC8#8]).bufLen ∧
      (isNoop (.noop (.group false false 0xC8#8)) = true →
        (lenient [0x80#8, 0xC8#8]).policy = .lenientSkipOneByte)) := by decide

/-- For ExecFrame: a meaning that emits and one that raises. -/
theorem witness_execFrame :
    (∃ t, exec (.jne 0xFA#8) (midway [0#8, 0#8, 0x75#8, 0xFA#8] .strictFail) = .next t ∧ t.status = .running) ∧
    (∃ t, exec (.jne 0xFA#8) (midway [0#8, 0#8, 0x75#8] .strictFail) = .next t ∧
      t.status = .fault (.truncatedInstruction 2)) :=
  ⟨⟨_, rfl, rfl⟩, ⟨_, rfl, rfl⟩⟩

/-- For StepRunsTheDecodedInstruction. -/
theorem witness_stepRuns :
    let s := midway [0#8, 0#8, 0x75#8, 0xFA#8, 0x90#8] .strictFail
    s.status = .running ∧ s.pos ≠ s.bufLen ∧ decode s.window = .got (.jne 0xFA#8) [0x90#8] := by decide

/-- For DoneExactlyAtEndOfBuffer and EndOfStreamIsNormal: a running state at the end of a buffer, whose step ends the
run; one before the end; one whose instruction is cut. -/
theorem witness_endOfStream :
    (let s := midway [0#8, 0#8] .strictFail
     s.status = .running ∧ s.pos = s.bufLen ∧ (nextOf (step s)).map (·.status) = some .done) ∧
    (let s := midway [0#8, 0#8, 0x90#8] .lenientSkipOneByte
     s.status = .running ∧ s.pos < s.bufLen ∧ (nextOf (step s)).map (·.status) = some .running) ∧
    (let s := midway [0#8, 0#8, 0x89#8] .lenientSkipOneByte
     s.status = .running ∧ s.pos < s.bufLen ∧ decode s.window = .stop .truncated) := by decide

/-- For NoStepAfterTheEnd: the two kinds of final status. -/
theorem witness_noStep :
    ({ lenient [] with status := .done } : State).status = .done ∧
    ({ strict [0x90#8] with status := .fault (.unsupportedEncoding 0) } : State).status =
      .fault (.unsupportedEncoding 0) := by decide

/-- For OutputIsAppendOnly, CursorMovesForwardOnly, RaisingAnError: a step that emits, and one that raises each of the
two errors. -/
theorem witness_steps :
    (let s := midway [0#8, 0#8, 0x75#8, 0xFA#8] .strictFail
     s.status = .running ∧ s.pos ≠ s.bufLen ∧ decode s.window = .got (.jne 0xFA#8) [] ∧
       (nextOf (step s)).map (·.status) = some .running) ∧
    (let s := midway [0#8, 0#8, 0x75#8] .strictFail
     s.status = .running ∧ (nextOf (step s)).map (·.status) = some (.fault (.truncatedInstruction 2))) ∧
    (let s := midway [0#8, 0#8, 0x0F#8] .strictFail
     s.status = .running ∧ (nextOf (step s)).map (·.status) = some (.fault (.unsupportedEncoding 2))) := by decide

/-- For TruncationExactly: a byte at the cursor, with as many bytes as the encoding demands and with one fewer. -/
theorem witness_truncation :
    (let s := midway [0#8, 0#8, 0x81#8, 0xC3#8, 0xFF#8, 0x00#8] .strictFail
     s.status = .running ∧ s.readByte s.pos = some 0x81#8 ∧
       ¬ (s.bufLen - s.pos < demanded 0x81#8 (s.readByte (s.pos + 1)))) ∧
    (let s := midway [0#8, 0#8, 0x81#8, 0xC3#8, 0xFF#8] .strictFail
     s.status = .running ∧ s.readByte s.pos = some 0x81#8 ∧
       s.bufLen - s.pos < demanded 0x81#8 (s.readByte (s.pos + 1))) := by decide

/-- For UnsupportedExactly: an unsupported leading byte, an unsupported sub-field, under either policy. -/
theorem witness_unsupported :
    (∀ p ∈ [Policy.lenientSkipOneByte, .strictFail], ∀ b0 ∈ [0x0F#8, 0x80#8],
      let s := midway [0#8, 0#8, b0, 0xC8#8] p
      s.status = .running ∧ s.readByte s.pos = some b0 ∧ s.policy = p) ∧
    unsupportedBytes 0x0F#8 (some 0xC8#8) ∧ unsupportedBytes 0x80#8 (some 0xC8#8) :=
  ⟨by decide, .inl rfl, .inr ⟨rfl, _, rfl, rfl⟩⟩

/-- For ErrorsInByteOrder: each of its cases, the third and the fourth with nothing more in the buffer. -/
theorem witness_errorsInOrder :
    (let s := midway [0#8, 0#8] .strictFail
     s.status = .running ∧ s.pos = s.bufLen) ∧
    (let s := midway [0#8, 0#8, 0x0F#8] .strictFail
     s.readByte s.pos = some 0x0F#8 ∧ recognisedLead 0x0F#8 = false) ∧
    (let s := midway [0#8, 0#8, 0x80#8] .strictFail
     s.readByte s.pos = some 0x80#8 ∧ recognisedLead 0x80#8 = true ∧ s.bufLen = s.pos + 1) ∧
    (let s := midway [0#8, 0#8, 0x81#8, 0x0E#8] .lenientSkipOneByte
     s.readByte s.pos = some 0x81#8 ∧ s.readByte (s.pos + 1) = some 0x0E#8 ∧ (0x81#8).toNat / 4 = 0x20 ∧
       supportedSub ((0x0E#8).toNat / 8 % 8) = false) := by decide

/-- For the last two cases of ErrorsInByteOrder. -/
theorem witness_errorsInOrder_later :
    (let s := midway [0#8, 0#8, 0x81#8, 0x06#8, 0xE8#8] .lenientSkipOneByte
     s.readByte s.pos = some 0x81#8 ∧ ¬ unsupportedBytes 0x81#8 (s.readByte (s.pos + 1)) ∧
       s.bufLen - s.pos < demanded 0x81#8 (s.readByte (s.pos + 1))) ∧
    (∃ t, step (midway [0#8, 0#8, 0x75#8] .strictFail) = .next t ∧ t.status = .fault (.truncatedInstruction 2)) := by
  refine ⟨⟨by decide, ?_, by decide⟩, _, rfl, rfl⟩
  rintro (h | ⟨-, m, hm, h⟩)
  · exact absurd h (by decide)
  · have : m = 0x06#8 := (Option.some.inj hm).symm
    subst this
    exact absurd h (by decide)

/-- For Resynchronisation. -/
theorem witness_resynchronisation :
    let s := midway [0#8, 0#8, 0x0F#8, 0x89#8, 0xD9#8] .lenientSkipOneByte
    s.status = .running ∧ s.policy = .lenientSkipOneByte ∧ s.readByte s.pos = some 0x0F#8 ∧
    recognisedLead 0x0F#8 = false ∧
    decode (s.windowAt (s.pos + 1)) = .got (.movRmR false true 0b011#3 (.register 0b001#3)) [] ∧
    isNoop (.movRmR false true 0b011#3 (.register 0b001#3)) = false := by decide

/-- For StepIgnoresHistory and ProgressAndTermination: a running state with the cursor inside the buffer. -/
theorem witness_running :
    (midway [0#8, 0#8, 0x75#8, 0xFA#8] .strictFail).status = .running ∧
    (midway [0#8, 0#8, 0x75#8, 0xFA#8] .strictFail).pos ≤ (midway [0#8, 0#8, 0x75#8, 0xFA#8] .strictFail).bufLen := by decide

/-- For PolicyMattersToUnsupportedOnly: a running state whose next instruction is supported, and one at the end. -/
theorem witness_policyMatters :
    ∀ s ∈ [midway [0#8, 0#8, 0x75#8, 0xFA#8] .strictFail, midway [0#8, 0#8] .strictFail],
      s.status = .running ∧ ∀ c rest, decode s.window ≠ .got (.noop c) rest := by
  intro s hs
  simp only [List.mem_cons, List.not_mem_nil, or_false] at hs
  rcases hs with rfl | rfl
  · exact ⟨rfl, fun c rest h => by
      rw [show decode _ = .got (.jne 0xFA#8) [] by decide] at h
      cases h⟩
  · exact ⟨rfl, fun c rest h => by
      rw [show decode _ = .stop .endOfStream by decide] at h
      cases h⟩

/-- For LaterBytesDoNotMatter: two buffers that agree on the bytes of the instruction and differ after it. -/
theorem witness_laterBytes :
    let s := midway [0#8, 0#8, 0x75#8, 0xFA#8] .strictFail
    let s' := midway [0#8, 0#8, 0x75#8, 0xFA#8, 0x90#8] .strictFail
    decode s.window = .got (.jne 0xFA#8) [] ∧ s'.pos = s.pos ∧
    ∀ k, k < (Instr.jne 0xFA#8).reach → s'.readByte (s.pos + k) = s.readByte (s.pos + k) := by decide

/-- For StepKeepsTheRunInvariant and EmittedValuesHaveText: a state that has the invariant, has emitted values and
takes a step. -/
theorem witness_runInvariant :
    (midway [0#8, 0#8, 0x75#8, 0xFA#8] .strictFail).Inv ∧
    ∃ t, step (midway [0#8, 0#8, 0x75#8, 0xFA#8] .strictFail) = .next t :=
  ⟨⟨by decide, by decide, by decide, by decide, by decide, trivial, by decide⟩, _, rfl⟩

/-- For StepKeepsTheLinearDecode: a state in the middle of a run, under the lenient policy. -/
theorem witness_linearDecode :
    LinearDecode { lenient [0x0F#8, 0x75#8, 0xFA#8] with pos := 1, out := [.noop] } ∧
    ∃ t, step { lenient [0x0F#8, 0x75#8, 0xFA#8] with pos := 1, out := [.noop] } = .next t :=
  ⟨⟨⟨[.noop (.leading 0x0F#8)], ⟨⟨[0x75#8, 0xFA#8], by decide⟩, rfl⟩, rfl, fun h => by cases h⟩, by decide, trivial⟩,
    _, rfl⟩

/-- For DecodeOfConcatenation: a buffer that decodes well, and second buffers of each of the three kinds. -/
theorem witness_concatenation :
    decodeBuffer [0x75#8, 0xFA#8] .strictFail = some (.ok [.jne 0xFA#8]) ∧
    decodeBuffer [0xE2#8, 0xFB#8] .strictFail = some (.ok [.loop 0xFB#8]) ∧
    decodeBuffer [0xE2#8] .strictFail = some (.error (.truncatedInstruction 0)) ∧
    decodeBuffer [0x90#8] .strictFail = some (.error (.unsupportedEncoding 0)) := by decide

/-- For OperandText: a displacement of each sign, at the ends of the range. -/
theorem witness_operandText : s16 0#16 = 0 ∧ 0 < s16 0x7FFF#16 ∧ s16 0x8000#16 < 0 := by decide

/-- For DecimalText: both signs, and zero. -/
theorem witness_decimalText : (0 : Int) ≤ 0 ∧ (-32768 : Int) < 0 := by decide

/-- For InstructionLines: operands with a text, a memory and a register destination. -/
theorem witness_instructionLines :
    locText ⟨true, some .bx, none, none⟩ = .ok "[bx]".toList ∧ locText ⟨false, some .cl, none, none⟩ = .ok "cl".toList :=
  ⟨rfl, rfl⟩

/-- For FormatterTotalOnTheInvariant and OneLinePerInstruction: a value that meets the invariant, and a hand-built one
that does not. -/
theorem witness_formatterTotal :
    (∀ l ∈ (Instruction.mov ⟨true, none, none, some 0#16⟩ ⟨false, some .ax, none, none⟩).locations, l.invariant = true) ∧
    (∃ l ∈ (Instruction.mov ⟨true, none, none, none⟩ ⟨false, some .ax, none, none⟩).locations, l.invariant = false) := by
  decide

/-- For LinesArePlain and OneLinePerInstruction: lines that the formatter gives. -/
theorem witness_lines :
    formatLine defaultNoopText (.jne 0xFA#8) = .ok "jne -6".toList ∧
    formatAll defaultNoopText [.noop, .jne 0xFA#8] = .ok ["noop".toList, "jne -6".toList] :=
  ⟨rfl, rfl⟩

end Sys2Proof.Tests
end

/-! SUPPORT. The state of a run: every value the decoder builds is sound, what a meaning and a step can do as one list
of outcomes, and from these the statements of 10_state.md. -/

namespace Sys2Proof.Machine

/-! ### The values are sound (10_state.md R28, R29; 41_operand_decoder.md R120; 43_mov.md R145) -/

/-- The width flag selects the register set (R110). -/
@[simp] theorem regName_isByte (r : BitVec 3) (w : Bool) : (regName r w).isByte = !w := by
  revert r w; decide

@[simp] theorem regOperand_isMemAddr (r : BitVec 3) (w : Bool) : (regOperand r w).isMemAddr = false := rfl

@[simp] theorem regOperand_wellShaped (r : BitVec 3) (w : Bool) : (regOperand r w).wellShaped = true := rfl

@[simp] theorem regOperand_hasWidth (r : BitVec 3) (w : Bool) : (regOperand r w).hasWidth w = true := by
  simp [Location.hasWidth, regOperand]

/-- The rows of R118 are a base alone or a base and an index, as the second and the third shape of R28 ask. -/
theorem eaPair_shape (rm : BitVec 3) :
    ((eaPair rm).1 ∈ [Register.si, .di, .bp, .bx] ∧ (eaPair rm).2 = none) ∨
    ((eaPair rm).1 ∈ [Register.bx, .bp] ∧ (eaPair rm).2 ∈ [some Register.si, some .di]) := by
  revert rm; decide

@[simp] theorem memOperand_wellShaped (rm : BitVec 3) (disp : Option Word) :
    (memOperand rm disp).wellShaped = true := by
  rcases eaPair_shape rm with ⟨hb, hi⟩ | ⟨hb, hi⟩
  · have h : (memOperand rm disp).isBaseShape = true := by simpa [Location.isBaseShape, memOperand, hi] using hb
    simp [Location.wellShaped, h]
  · have h : (memOperand rm disp).isIndexedShape = true := by
      simpa [Location.isIndexedShape, memOperand] using And.intro hb hi
    simp [Location.wellShaped, h]

@[simp] theorem directOperand_wellShaped (a : Word) : (directOperand a).wellShaped = true := rfl

@[simp] theorem directOperand_hasWidth (a : Word) (w : Bool) : (directOperand a).hasWidth w = true := rfl

@[simp] theorem rmOperand_wellShaped (rm : RmField) (w : Bool) : (rmOperand rm w).wellShaped = true := by
  cases rm with
  | base rm => exact memOperand_wellShaped rm none
  | direct a => exact directOperand_wellShaped a
  | disp8 rm d => exact memOperand_wellShaped rm (some (sext16 d))
  | disp16 rm d => exact memOperand_wellShaped rm (some d)
  | register rm => exact regOperand_wellShaped rm w

/-- A register operand has the width it was built for, a memory operand carries none (R120). -/
@[simp] theorem rmOperand_hasWidth (rm : RmField) (w : Bool) : (rmOperand rm w).hasWidth w = true := by
  cases rm with
  | register rm => exact regOperand_hasWidth rm w
  | _ => rfl

@[simp] theorem immValue_width (imm : ImmField) : (immValue imm).width = imm.w := by
  cases imm <;> rfl

@[simp] theorem groupImmValue_width (imm : GroupImm) : (groupImmValue imm).width = imm.w := by
  cases imm <;> rfl

/-- Two well-shaped operands of one width make a sound pair, if one of them is no memory operand. -/
theorem pairSound_of_width {src dest : Location} (w : Bool) (hs : src.wellShaped = true) (hd : dest.wellShaped = true)
    (hm : (src.isMemAddr && dest.isMemAddr) = false) (hsw : src.hasWidth w = true) (hdw : dest.hasWidth w = true) :
    pairSound src dest = true := by
  unfold pairSound
  rw [hs, hd, hm]
  cases w <;> simp [hsw, hdw]

/-- A register and an r/m operand of one width are a sound pair in either direction. -/
theorem directed_sound {op : Location → Location → Instruction}
    (hop : ∀ src dest, (op src dest).sound = pairSound src dest) (d w : Bool) (reg : BitVec 3) (rm : RmField) :
    (directed d op (regOperand reg w) (rmOperand rm w)).sound = true := by
  cases d with
  | false => exact (hop _ _).trans (pairSound_of_width w (by simp) (by simp) (by simp) (by simp) (by simp))
  | true => exact (hop _ _).trans (pairSound_of_width w (by simp) (by simp) (by simp) (by simp) (by simp))

/-- An immediate and an r/m operand built for the width of its tag. -/
theorem immSound_rmOperand (data : Immediate) {w : Bool} (hw : data.width = w) (rm : RmField) :
    immSound data (rmOperand rm w) = true := by
  simp [immSound, hw]

/-- An immediate and a register built for the width of its tag. -/
theorem immSound_regOperand (data : Immediate) {w : Bool} (hw : data.width = w) (r : BitVec 3) :
    immSound data (regOperand r w) = true := by
  simp [immSound, hw]

/-- Every value that an instruction emits is sound. -/
theorem valueOf_sound (i : Instr) : (valueOf i).sound = true := by
  cases i with
  | movRmR d w reg rm => exact directed_sound (fun _ _ => rfl) d w reg rm
  | addRmR d w reg rm => exact directed_sound (fun _ _ => rfl) d w reg rm
  | subRmR d w reg rm => exact directed_sound (fun _ _ => rfl) d w reg rm
  | cmpRmR d w reg rm => exact directed_sound (fun _ _ => rfl) d w reg rm
  | movAccMem w a =>
    exact pairSound_of_width w rfl rfl rfl (directOperand_hasWidth a w) (regOperand_hasWidth _ w)
  | movMemAcc w a =>
    exact pairSound_of_width w rfl rfl rfl (regOperand_hasWidth _ w) (directOperand_hasWidth a w)
  | movRmImm x rm imm => exact immSound_rmOperand _ (immValue_width imm) rm
  | movRImm r imm => exact immSound_regOperand _ (immValue_width imm) r
  | addRmImm rm imm => exact immSound_rmOperand _ (groupImmValue_width imm) rm
  | subRmImm rm imm => exact immSound_rmOperand _ (groupImmValue_width imm) rm
  | cmpRmImm rm imm => exact immSound_rmOperand _ (groupImmValue_width imm) rm
  | addAccImm imm => exact immSound_regOperand _ (immValue_width imm) _
  | subAccImm imm => exact immSound_regOperand _ (immValue_width imm) _
  | cmpAccImm imm => exact immSound_regOperand _ (immValue_width imm) _
  | _ => rfl

/-! ### The outcomes of a meaning and of a step -/

theorem Instr.length_le_reach (i : Instr) : i.length ≤ i.reach := Nat.le_add_right _ _

/-- `t` is `s` after an error at the instruction that begins at the cursor: up to `n` bytes of the buffer were consumed.
Both errors of a run have this form. -/
def FailsAt (s t : State) (n : Nat) (e : DecodeError) : Prop :=
  n ≤ s.bufLen - s.pos ∧ e.offset = s.pos ∧ t = (s.latch.advance n).raise e

theorem State.truncate_failsAt (s : State) :
    FailsAt s s.truncate (s.bufLen - s.pos) (.truncatedInstruction s.pos) := ⟨Nat.le_refl _, rfl, rfl⟩

/-- A meaning emits the instruction's value or raises an error at the cursor. -/
theorem exec_emits_or_fails {i : Instr} {s t : State} (h : exec i s = .next t) :
    (s.pos + i.length ≤ s.bufLen ∧ t = s.emitted i.length (valueOf i)) ∨ ∃ n e, FailsAt s t n e := by
  have hlen := Instr.length_le_reach i
  rcases exec_eq_next h with ⟨hle, -, ht⟩ | ⟨hle, hn, -, ht⟩ | ⟨-, ht⟩
  · exact .inl ⟨by omega, ht⟩
  · have hone : i.length = lenN := by
      cases i with
      | noop c => rfl
      | _ => cases hn
    exact .inr ⟨lenN, .unsupportedEncoding s.pos, by omega, rfl, ht⟩
  · exact .inr ⟨_, _, ht ▸ s.truncate_failsAt⟩

/-- A step sets Done at the end of the buffer, emits the value of the decoded instruction, or raises an error at the
cursor. -/
theorem step_finishes_emits_or_fails {s t : State} (h : step s = .next t) :
    s.status = .running ∧
    ((s.pos = s.bufLen ∧ t = s.finish) ∨
     (∃ i c, decode s.window = .got i c ∧ s.pos + i.length ≤ s.bufLen ∧ t = s.emitted i.length (valueOf i)) ∨
     ∃ n e, FailsAt s t n e) := by
  obtain ⟨hs, ⟨hp, ht⟩ | ⟨-, i, c, hd, hx⟩ | ⟨-, r, -, ht⟩⟩ := step_eq_next h
  · exact ⟨hs, .inl ⟨hp, ht⟩⟩
  · rcases exec_emits_or_fails hx with ⟨hle, ht⟩ | hfail
    · exact ⟨hs, .inr (.inl ⟨i, c, hd, hle, ht⟩)⟩
    · exact ⟨hs, .inr (.inr hfail)⟩
  · exact ⟨hs, .inr (.inr ⟨_, _, ht ▸ s.truncate_failsAt⟩)⟩

theorem step_of_done {s : State} (h : s.status = .done) : step s = .fault .finished := by
  simp [step, fetch, h]

theorem step_of_fault {s : State} {e : DecodeError} (h : s.status = .fault e) : step s = .fault (.aborted e) := by
  simp [step, fetch, h]

/-! ### The invariant of a run (10_state.md R36) -/

theorem State.Inv.finish {s : State} (h : s.Inv) (hp : s.pos = s.bufLen) : s.finish.Inv := by
  obtain ⟨hwf, hcells, -, hle, -, -, hout⟩ := h
  exact ⟨hwf, hcells, Nat.le_refl _, hle, fun _ => hp, trivial, hout⟩

theorem State.Inv.emitted {s : State} {len : Nat} {v : Instruction} (h : s.Inv) (hs : s.status = .running)
    (hlen : s.pos + len ≤ s.bufLen) (hv : v.sound = true) : (s.emitted len v).Inv := by
  obtain ⟨hwf, hcells, -, -, -, -, hout⟩ := h
  refine ⟨hwf, hcells, Nat.le_add_right _ _, hlen, ?_, ?_, ?_⟩
  · simp [hs]
  · simp [hs]
  · intro u hu
    rcases List.mem_append.mp hu with hold | hnew
    · exact hout u hold
    · exact List.mem_singleton.mp hnew ▸ hv

theorem State.Inv.failsAt {s t : State} {n : Nat} {e : DecodeError} (h : s.Inv) (hf : FailsAt s t n e) : t.Inv := by
  obtain ⟨hwf, hcells, -, hle, -, -, hout⟩ := h
  obtain ⟨hn, hoff, rfl⟩ := hf
  have hpos : s.pos + n ≤ s.bufLen := by omega
  exact ⟨hwf, hcells, Nat.le_add_right _ _, hpos, by simp, hoff, hout⟩

/-- Settles O43: each of the three outcomes of a step keeps the invariant, the emitted value being sound. -/
theorem stepKeepsTheRunInvariant : Obligations.StepKeepsTheRunInvariant := by
  intro s t hinv h
  obtain ⟨hs, ⟨hp, rfl⟩ | ⟨i, c, -, hle, rfl⟩ | ⟨n, e, hfail⟩⟩ := step_finishes_emits_or_fails h
  · exact hinv.finish hp
  · exact hinv.emitted hs hle (valueOf_sound i)
  · exact hinv.failsAt hfail

/-- Reset is the start of the run on the empty buffer under the policy of reset. -/
theorem State.reset_eq_load : State.reset = State.load [] Config.resetPolicy := rfl

theorem State.load_inv (bytes : List Byte) (p : Policy) : (State.load bytes p).Inv := by
  obtain ⟨hwf, hcells⟩ := State.load_buf_wf bytes p
  exact ⟨hwf, hcells, Nat.le_refl _, Nat.zero_le _, by simp, trivial, by simp⟩

/-- Settles O44. -/
theorem runsStartInTheInvariant : Obligations.RunsStartInTheInvariant :=
  ⟨State.reset_eq_load ▸ State.load_inv _ _, State.load_inv⟩

/-- At the start of a run the empty list of instructions is the decode up to the cursor, offset 0. -/
theorem State.load_linearDecode (bytes : List Byte) (p : Policy) : LinearDecode (State.load bytes p) :=
  ⟨⟨[], rfl, rfl, by simp⟩, Nat.zero_le _, trivial⟩

/-- Settles O46. -/
theorem runsStartWithAnEmptyDecode : Obligations.RunsStartWithAnEmptyDecode :=
  ⟨State.reset_eq_load ▸ State.load_linearDecode _ _, State.load_linearDecode⟩

/-! ### Frames of a meaning and of a step (10_state.md R20 to R26) -/

/-- Settles O26, by the two ends of a meaning. -/
theorem execFrame : Obligations.ExecFrame := by
  intro i s t h
  rcases exec_emits_or_fails h with ⟨-, rfl⟩ | ⟨n, e, -, hoff, rfl⟩
  · exact ⟨fun _ => rfl, rfl, rfl, rfl, rfl, .inl ⟨rfl, rfl⟩⟩
  · exact ⟨fun _ => rfl, rfl, rfl, rfl, rfl, .inr ⟨rfl, e, rfl, hoff⟩⟩

/-- Settles O32, by the three outcomes of a step. -/
theorem outputIsAppendOnly : Obligations.OutputIsAppendOnly := by
  intro s t h
  obtain ⟨hs, ⟨-, rfl⟩ | ⟨i, c, -, -, rfl⟩ | ⟨n, e, -, -, rfl⟩⟩ := step_finishes_emits_or_fails h
  · exact ⟨.inl rfl, fun _ _ => rfl⟩
  · exact ⟨.inr ⟨valueOf i, rfl⟩, fun e he => by simp [hs] at he⟩
  · exact ⟨.inl rfl, fun _ _ => rfl⟩

/-- Settles O34: only the step that emits leaves the run running, and it advances by the instruction's length. -/
theorem cursorMovesForwardOnly : Obligations.CursorMovesForwardOnly := by
  intro s t h
  obtain ⟨-, ⟨-, rfl⟩ | ⟨i, c, hd, -, rfl⟩ | ⟨n, e, -, -, rfl⟩⟩ := step_finishes_emits_or_fails h
  · exact ⟨rfl, Nat.le_refl _, fun _ _ _ hrun => by cases hrun⟩
  · refine ⟨rfl, Nat.le_add_right _ _, fun i' c' hd' _ _ => ?_⟩
    obtain ⟨rfl, -⟩ : i = i' ∧ c = c' := by simpa [hd] using hd'
    rfl
  · exact ⟨rfl, Nat.le_add_right _ _, fun _ _ _ hrun => by cases hrun⟩

/-- Settles O31. -/
theorem noStepAfterTheEnd : Obligations.NoStepAfterTheEnd :=
  fun _ => ⟨step_of_done, fun _ => step_of_fault⟩

/-! ### The policy (10_state.md R26) -/

/-- The shared end of the supported instructions does not look at the policy. -/
theorem perform_any_policy (len : Nat) (v : Instruction) (s : State) (p : Policy) :
    ∃ t, perform len v s = .next t ∧ perform len v { s with policy := p } = .next { t with policy := p } := by
  by_cases h : s.pos + len ≤ s.bufLen
  · exact ⟨_, perform_of_le h, perform_of_le h⟩
  · exact ⟨_, perform_of_lt (Nat.lt_of_not_le h), perform_of_lt (Nat.lt_of_not_le h)⟩

/-- Settles O41, by what stands at the cursor: the end, an instruction that is no Noop, or a cut one. -/
theorem policyMattersToUnsupportedOnly : Obligations.PolicyMattersToUnsupportedOnly := by
  intro s p hs hnoop
  rw [step_running hs, step_running (s := { s with policy := p }) hs,
    State.window_congr (s := s) (s' := { s with policy := p }) rfl rfl rfl]
  by_cases hp : s.pos = s.bufLen
  · exact ⟨s.finish, if_pos hp, if_pos hp⟩
  · simp only [hp, if_false]
    cases hd : decode s.window with
    | got i c =>
      have hi : isNoop i = false := by
        cases i with
        | noop cause => exact absurd hd (hnoop cause c)
        | _ => rfl
      simp only [exec_eq_perform _ hi]
      exact perform_any_policy i.length (valueOf i) s p
    | stop r => exact ⟨s.truncate, rfl, rfl⟩

end Sys2Proof.Machine

/-! SUPPORT. The byte buffer: the bytes that a step sees, what no step changes, and the statements of 20_memory.md. -/

namespace Sys2Proof.Machine

/-! ### The bytes at the cursor (20_memory.md R40, R41) -/

/-- The bytes a cursor sees are those of the buffer from `pos` on; after the first absent one every later one is. -/
theorem State.upcoming_getElem? (n k : Nat) (s : State) :
    (State.upcoming n s)[k]? = if k < n then s.readByte (s.pos + k) else none := by
  induction n generalizing k s with
  | zero => simp [State.upcoming]
  | succ n ih =>
    unfold State.upcoming State.nextByte
    by_cases hpos : s.pos < s.bufLen
    · rw [State.readByte_of_lt hpos]
      cases k with
      | zero => simp [State.readByte_of_lt hpos]
      | succ k =>
        have hoff : s.pos + 1 + k = s.pos + (k + 1) := by omega
        simp [ih, State.readByte, hoff]
    · rw [State.readByte_of_le (a := s.pos) (by omega), State.readByte_of_le (a := s.pos + k) (by omega)]
      simp

theorem State.window_getElem? (s : State) (k : Nat) :
    s.window[k]? = if k < maxInstrBytes then s.readByte (s.pos + k) else none :=
  State.upcoming_getElem? maxInstrBytes k s

/-- Settles O28. -/
theorem windowIsTheBufferAtPos : Obligations.WindowIsTheBufferAtPos := State.window_getElem?

/-! ### What no step changes (20_memory.md R47, 10_state.md R26) -/

/-- `t` has the buffer, its length and the policy of `s`. -/
def SameSupply (s t : State) : Prop := t.buf = s.buf ∧ t.bufLen = s.bufLen ∧ t.policy = s.policy

theorem SameSupply.refl (s : State) : SameSupply s s := ⟨rfl, rfl, rfl⟩

theorem SameSupply.trans {s t u : State} (h : SameSupply s t) (h' : SameSupply t u) : SameSupply s u := by
  obtain ⟨hbuf, hlen, hpol⟩ := h
  obtain ⟨hbuf', hlen', hpol'⟩ := h'
  exact ⟨hbuf'.trans hbuf, hlen'.trans hlen, hpol'.trans hpol⟩

/-- Each of the three outcomes of a step keeps what the host supplied. -/
theorem step_sameSupply {s t : State} (h : step s = .next t) : SameSupply s t := by
  obtain ⟨-, ⟨-, rfl⟩ | ⟨i, c, -, -, rfl⟩ | ⟨n, e, -, -, rfl⟩⟩ := step_finishes_emits_or_fails h
  · exact ⟨rfl, rfl, rfl⟩
  · exact ⟨rfl, rfl, rfl⟩
  · exact ⟨rfl, rfl, rfl⟩

/-- A run of steps is at most one step and the rest of the run. -/
theorem runSteps_succ_cases (k : Nat) (s : State) :
    runSteps (k + 1) s = s ∨ ∃ t, step s = .next t ∧ runSteps (k + 1) s = runSteps k t := by
  simp only [runSteps]
  cases hstep : step s with
  | next t => exact .inr ⟨t, rfl, rfl⟩
  | fault r => exact .inl rfl
  | refused r => exact .inl rfl

theorem runSteps_sameSupply (k : Nat) (s : State) : SameSupply s (runSteps k s) := by
  induction k generalizing s with
  | zero => exact .refl s
  | succ k ih =>
    rcases runSteps_succ_cases k s with hrun | ⟨t, hstep, hrun⟩
    · rw [hrun]; exact .refl s
    · rw [hrun]; exact (step_sameSupply hstep).trans (ih t)

/-- Settles O33: a run keeps what every step keeps, and a read depends on nothing else. -/
theorem bufferAndPolicyAreReadOnly : Obligations.BufferAndPolicyAreReadOnly := by
  intro s k
  obtain ⟨hbuf, hlen, hpol⟩ := runSteps_sameSupply k s
  exact ⟨fun a => by simp [State.readByte, hbuf, hlen], hbuf, hlen, hpol⟩

/-! ### 16-bit quantities (20_memory.md R44) -/

/-- The signed reading of two bytes: the sign is bit 7 of the byte at the higher offset. -/
theorem s16_le16 (lo hi : Byte) :
    s16 (le16 lo hi) =
      if hi.toNat < 128 then (lo.toNat + 256 * hi.toNat : Int) else lo.toNat + 256 * hi.toNat - 65536 := by
  have hsign : (le16 lo hi).toNat < 32768 ↔ hi.toNat < 128 := by
    have := lo.isLt
    rw [le16_toNat]
    omega
  simp only [s16, hsign]
  rw [le16_toNat]
  push_cast
  rfl

/-- Settles O7: each of the readers reads its two bytes by `nextWord`. -/
theorem wordsAreLittleEndianSigned : Obligations.WordsAreLittleEndianSigned :=
  fun lo hi _ => ⟨le16 lo hi, le16_toNat lo hi, s16_le16 lo hi, fun _ => rfl, rfl, fun _ _ => rfl, rfl, rfl⟩

/-! ### The end of the stream (20_memory.md R43) -/

theorem step_at_end {s : State} (hs : s.status = .running) (hp : s.pos = s.bufLen) : step s = .next s.finish := by
  rw [step_running hs, if_pos hp]

theorem step_of_cut {s : State} {r : DecodeStop} (hs : s.status = .running) (hp : s.pos ≠ s.bufLen)
    (hd : decode s.window = .stop r) : step s = .next s.truncate := by
  rw [step_running hs, if_neg hp, hd]

/-- A step before the end of the buffer emits or fails, and neither sets Done. -/
theorem step_not_done {s t : State} (hp : s.pos ≠ s.bufLen) (h : step s = .next t) : t.status ≠ .done := by
  obtain ⟨hs, ⟨hend, -⟩ | ⟨i, c, -, -, rfl⟩ | ⟨n, e, -, -, rfl⟩⟩ := step_finishes_emits_or_fails h
  · exact absurd hend hp
  · simp [hs]
  · simp

/-- Settles O30. -/
theorem endOfStreamIsNormal : Obligations.EndOfStreamIsNormal :=
  ⟨fun s hs hp => ⟨s.finish, step_at_end hs hp, rfl, rfl⟩,
    fun s _ hs hp hd => ⟨s.truncate, step_of_cut hs hp.ne hd, s.truncate_raised⟩,
    fun _ _ _ hp h => step_not_done hp.ne h,
    fun _ => rfl⟩

end Sys2Proof.Machine

/-! SUPPORT. An answer of the decoder depends on the bytes it looks at alone (20_memory.md R50, R52). -/

namespace Sys2Proof

/-! ### Readers that consume what they look at -/

/-- The reader `r`, begun after `k` bytes, answers `v` by consuming the bytes that make them `len v`, and it answers
the same whatever stands behind those. -/
def ReadsExactly {α : Type} (k : Nat) (r : Cursor → Read α) (len : α → Nat) : Prop :=
  ∀ c v c', r c = .got v c' → ∃ u, c = u ++ c' ∧ k + u.length = len v ∧ ∀ d, r (u ++ d) = .got v d

theorem ReadsExactly.got {α : Type} {k : Nat} {len : α → Nat} {v : α} (h : k = len v) :
    ReadsExactly k (.got v) len := by
  rintro c _ _ ⟨rfl, rfl⟩
  exact ⟨[], rfl, h, fun _ => rfl⟩

/-- Two readers in a row, the second begun where the first ended. -/
theorem ReadsExactly.andThen {α β : Type} {k : Nat} {r : Cursor → Read α} {f : α → Cursor → Read β} {m : α → Nat}
    {len : β → Nat} (hr : ReadsExactly 0 r m) (hf : ∀ v, ReadsExactly (k + m v) (f v) len) :
    ReadsExactly k (fun c => (r c).andThen f) len := by
  intro c w c' h
  obtain ⟨v, c₁, hv, hw⟩ := Read.andThen_eq_got h
  obtain ⟨u₁, rfl, hlen₁, hu₁⟩ := hr c v c₁ hv
  obtain ⟨u₂, rfl, hlen₂, hu₂⟩ := hf v c₁ w c' hw
  refine ⟨u₁ ++ u₂, by simp, ?_, fun d => ?_⟩
  · rw [List.length_append]; omega
  · show (r _).andThen f = _
    rw [List.append_assoc, hu₁, Read.got_andThen, hu₂]

theorem next_readsExactly : ReadsExactly 0 next (fun _ => 1) :=
  fun _ b _ h => ⟨[b], next_eq_got h, rfl, fun _ => rfl⟩

theorem nextWord_readsExactly : ReadsExactly 0 nextWord (fun _ => 2) :=
  fun _ v _ h => ⟨wordBytes v, nextWord_eq_got h, rfl, nextWord_wordBytes v⟩

theorem readRm_readsExactly (m : BitVec 2) (r : BitVec 3) : ReadsExactly 0 (readRm m r) RmField.dispLen := by
  intro c rm c' h
  obtain ⟨hwf, rfl, rfl, hc⟩ := readRm_eq_got h
  exact ⟨rm.dispBytes, hc, by simp, fun d => readRm_encoded rm d hwf⟩

theorem readImm_readsExactly (w : Bool) : ReadsExactly 0 (readImm w) ImmField.len := by
  intro c imm c' h
  obtain ⟨rfl, hc⟩ := readImm_eq_got h
  exact ⟨imm.bytes, hc, by simp, readImm_encoded imm⟩

theorem readGroupImm_readsExactly (s w : Bool) : ReadsExactly 0 (readGroupImm s w) GroupImm.len := by
  intro c imm c' h
  obtain ⟨rfl, rfl, hc⟩ := readGroupImm_eq_got h
  exact ⟨imm.bytes, hc, by simp, readGroupImm_encoded imm⟩

/-! ### The formats, begun after the leading byte -/

theorem decodeRmR_readsExactly {mk : Bool → Bool → BitVec 3 → RmField → Instr}
    (hmk : ∀ d w reg rm, (mk d w reg rm).reach = lenRM rm) (b0 : Byte) :
    ReadsExactly 1 (decodeRmR mk b0) Instr.reach :=
  next_readsExactly.andThen fun _ => (readRm_readsExactly _ _).andThen fun _ => .got (hmk _ _ _ _).symm

theorem decodeMovRmImm_readsExactly (b0 : Byte) : ReadsExactly 1 (decodeMovRmImm b0) Instr.reach :=
  next_readsExactly.andThen fun _ => (readRm_readsExactly _ _).andThen fun _ =>
    (readImm_readsExactly _).andThen fun _ => .got rfl

theorem decodeMovRImm_readsExactly (b0 : Byte) : ReadsExactly 1 (decodeMovRImm b0) Instr.reach :=
  (readImm_readsExactly _).andThen fun _ => .got rfl

theorem decodeAccMem_readsExactly {mk : Bool → Word → Instr} (hmk : ∀ w a, (mk w a).reach = lenAM) (b0 : Byte) :
    ReadsExactly 1 (decodeAccMem mk b0) Instr.reach :=
  nextWord_readsExactly.andThen fun _ => .got (hmk _ _).symm

theorem decodeAccImm_readsExactly {mk : ImmField → Instr} (hmk : ∀ imm, (mk imm).reach = lenImm imm) (b0 : Byte) :
    ReadsExactly 1 (decodeAccImm mk b0) Instr.reach :=
  (readImm_readsExactly _).andThen fun _ => .got (hmk _).symm

theorem decodeJump_readsExactly {mk : Byte → Instr} (hmk : ∀ inc, (mk inc).reach = lenJ) :
    ReadsExactly 1 (decodeJump mk) Instr.reach :=
  next_readsExactly.andThen fun _ => .got (hmk _).symm

/-- One more row in front of a table whose every row looks at `n` bytes. -/
theorem reach_of_row_cons {p : Prop} [Decidable p] {row : Byte → Instr} {rows : Option (Byte → Instr)} {n : Nat}
    (hrow : ∀ inc, (row inc).reach = n) (hrows : ∀ mk, rows = some mk → ∀ inc, (mk inc).reach = n) :
    ∀ mk, (if p then some row else rows) = some mk → ∀ inc, (mk inc).reach = n := by
  intro mk h
  split at h
  · cases h; exact hrow
  · exact hrows mk h

/-- Every row of format J looks at two bytes. -/
theorem jumpRow_reach {b0 : Byte} : ∀ mk, jumpRow b0 = some mk → ∀ inc, (mk inc).reach = lenJ := by
  unfold jumpRow
  iterate 20 refine reach_of_row_cons (fun _ => rfl) ?_
  exact fun _ h => nomatch h

/-- Every supported row of format G1 looks at what it consumes. -/
theorem groupRow_reach {sub : BitVec 3} {mk : RmField → GroupImm → Instr} (h : groupRow sub = some mk)
    (rm : RmField) (imm : GroupImm) : (mk rm imm).reach = lenG1 rm imm := by
  unfold groupRow at h
  split_ifs at h <;> (cases h; rfl)

/-! ### The decoder, which may look further than it consumes -/

/-- The reader `r`, begun after `k` bytes, answers `i` from the bytes that make them `i.reach`, and it answers `i`
whatever stands behind them. -/
def LooksAtReach (k : Nat) (r : Cursor → Read Instr) : Prop :=
  ∀ c i c', r c = .got i c' → ∃ u e, c = u ++ e ∧ k + u.length = i.reach ∧ ∀ d, ∃ d', r (u ++ d) = .got i d'

theorem ReadsExactly.looksAtReach {k : Nat} {r : Cursor → Read Instr} (h : ReadsExactly k r Instr.reach) :
    LooksAtReach k r := by
  intro c i c' hr
  obtain ⟨u, hc, hlen, hu⟩ := h c i c' hr
  exact ⟨u, c', hc, hlen, fun d => ⟨d, hu d⟩⟩

/-- A choice that does not depend on the bytes to come. -/
theorem LooksAtReach.ite {k : Nat} {p : Prop} [Decidable p] {r r' : Cursor → Read Instr} (h : LooksAtReach k r)
    (h' : LooksAtReach k r') : LooksAtReach k (fun c => if p then r c else r' c) := by
  by_cases hp : p
  · simpa only [if_pos hp] using h
  · simpa only [if_neg hp] using h'

/-- A reader that needs a byte, by what it does behind each byte. -/
theorem LooksAtReach.of_cons {k : Nat} {r : Cursor → Read Instr} (hnil : ∀ i c', r [] ≠ .got i c')
    (hcons : ∀ b, LooksAtReach (k + 1) (fun c => r (b :: c))) : LooksAtReach k r := by
  intro c i c' h
  cases c with
  | nil => exact absurd h (hnil i c')
  | cons b c =>
    obtain ⟨u, e, rfl, hlen, hu⟩ := hcons b c i c' h
    exact ⟨b :: u, e, rfl, by rw [List.length_cons]; omega, hu⟩

/-- The mode byte of format G1 is looked at in any case; a supported sub-field makes it the first of the bytes read
(44_arith.md R159), an unsupported one leaves it (46_noop.md R201). -/
theorem decodeGroup_looksAtReach (b0 : Byte) : LooksAtReach 1 (decodeGroup b0) := by
  refine .of_cons (fun _ _ => nofun) fun b1 => ?_
  simp only [decodeGroup, peek_cons, next_cons, Read.got_andThen]
  cases hrow : groupRow (field b1 2 3) with
  | none =>
    rintro c _ _ ⟨rfl, rfl⟩
    exact ⟨[], c, rfl, rfl, fun d => ⟨b1 :: d, rfl⟩⟩
  | some mk =>
    exact ReadsExactly.looksAtReach ((readRm_readsExactly _ _).andThen fun rm =>
      (readGroupImm_readsExactly _ _).andThen fun imm => .got (groupRow_reach hrow rm imm).symm)

/-- An answer of the decoder is fixed by the bytes the instruction looks at: test by test of R92, each format. -/
theorem decode_looksAtReach : LooksAtReach 0 decode := by
  refine .of_cons (fun _ _ => nofun) fun b0 => ?_
  simp only [decode]
  refine .ite (decodeRmR_readsExactly (fun _ _ _ _ => rfl) b0).looksAtReach ?_
  refine .ite (decodeMovRmImm_readsExactly b0).looksAtReach ?_
  refine .ite (decodeMovRImm_readsExactly b0).looksAtReach ?_
  refine .ite (decodeAccMem_readsExactly (fun _ _ => rfl) b0).looksAtReach ?_
  refine .ite (decodeAccMem_readsExactly (fun _ _ => rfl) b0).looksAtReach ?_
  refine .ite (decodeRmR_readsExactly (fun _ _ _ _ => rfl) b0).looksAtReach ?_
  refine .ite (decodeRmR_readsExactly (fun _ _ _ _ => rfl) b0).looksAtReach ?_
  refine .ite (decodeRmR_readsExactly (fun _ _ _ _ => rfl) b0).looksAtReach ?_
  refine .ite (decodeGroup_looksAtReach b0) ?_
  refine .ite (decodeAccImm_readsExactly (fun _ => rfl) b0).looksAtReach ?_
  refine .ite (decodeAccImm_readsExactly (fun _ => rfl) b0).looksAtReach ?_
  refine .ite (decodeAccImm_readsExactly (fun _ => rfl) b0).looksAtReach ?_
  cases hrow : jumpRow b0 with
  | some mk => exact (decodeJump_readsExactly (jumpRow_reach mk hrow)).looksAtReach
  | none => exact (ReadsExactly.got rfl).looksAtReach

end Sys2Proof

namespace Sys2Proof.Machine

/-- A cursor that sees the same bytes as another over the length of `u` sees `u` where the other does. -/
theorem State.window_startsWith_of_readByte_eq {s s' : State} {u : List Byte} (hu : u <+: s.window)
    (hpos : s'.pos = s.pos) (hread : ∀ k, k < u.length → s'.readByte (s.pos + k) = s.readByte (s.pos + k)) :
    u <+: s'.window := by
  rw [List.prefix_iff_getElem?] at hu ⊢
  intro k hk
  rw [← hu k hk, State.window_getElem?, State.window_getElem?, hpos, hread k hk]

/-- Settles O42: the bytes that the answer rests on stand at the other cursor too. -/
theorem laterBytesDoNotMatter : Obligations.LaterBytesDoNotMatter := by
  intro s s' i c hd hpos hread
  obtain ⟨u, e, hwin, hlen, hu⟩ := decode_looksAtReach _ i c hd
  rw [Nat.zero_add] at hlen
  obtain ⟨e', he'⟩ := State.window_startsWith_of_readByte_eq ⟨e, hwin.symm⟩ hpos (hlen ▸ hread)
  exact he' ▸ hu e'

end Sys2Proof.Machine

/-! SUPPORT. The dispatcher by the eight formats of 30_encoding.md R61. -/

namespace Sys2Proof

/-! ### The eight formats of a leading byte (30_encoding.md R61, R66) -/

/-- The rows of format RM: the fixed opcode bits and the instruction. -/
inductive RmRow : BitVec 6 → (Bool → Bool → BitVec 3 → RmField → Instr) → Prop where
  | mov : RmRow 0b100010#6 .movRmR
  | add : RmRow 0b000000#6 .addRmR
  | sub : RmRow 0b001010#6 .subRmR
  | cmp : RmRow 0b001110#6 .cmpRmR

/-- The rows of format AM. -/
inductive AmRow : BitVec 7 → (Bool → Word → Instr) → Prop where
  | load : AmRow 0b1010000#7 .movAccMem
  | store : AmRow 0b1010001#7 .movMemAcc

/-- The rows of format AI. -/
inductive AiRow : BitVec 7 → (ImmField → Instr) → Prop where
  | add : AiRow 0b0000010#7 .addAccImm
  | sub : AiRow 0b0010110#7 .subAccImm
  | cmp : AiRow 0b0011110#7 .cmpAccImm

/-- `Dispatch b0 r`: the leading byte `b0` belongs to one of the eight formats of R61, and `r b0` is what reads the
bytes behind it. -/
inductive Dispatch : Byte → (Byte → Cursor → Read Instr) → Prop where
  | formatRM {op mk} (row : RmRow op mk) (d w : Bool) : Dispatch (lead2 op d w) (decodeRmR mk)
  | formatAI {op mk} (row : AiRow op mk) (w : Bool) : Dispatch (lead1 op w) (decodeAccImm mk)
  | formatG1 (s w : Bool) : Dispatch (lead2 0b100000#6 s w) decodeGroup
  | formatMI (w : Bool) : Dispatch (lead1 0b1100011#7 w) decodeMovRmImm
  | formatRI (w : Bool) (r : BitVec 3) : Dispatch (leadRI w r) decodeMovRImm
  | formatAM {op mk} (row : AmRow op mk) (w : Bool) : Dispatch (lead1 op w) (decodeAccMem mk)
  | formatJ {b0 mk} (row : jumpRow b0 = some mk) : Dispatch b0 (fun _ => decodeJump mk)
  | formatN {b0} (h : recognisedLead b0 = false) : Dispatch b0 (fun b0 => .got (.noop (.leading b0)))

/-- A leading byte that the map of R66 does not recognise passes no test of R92. -/
theorem no_test_of_not_recognised : ∀ b0 : Byte, recognisedLead b0 = false →
    b0 &&& 0xFC#8 ∉ [0x88#8, 0x00#8, 0x28#8, 0x38#8, 0x80#8] ∧
    b0 &&& 0xFE#8 ∉ [0xC6#8, 0xA0#8, 0xA2#8, 0x04#8, 0x2C#8, 0x3C#8] ∧
    b0 &&& 0xF0#8 ≠ 0xB0#8 ∧ (jumpRow b0).isNone := by decide

/-- The leading byte of format RI fails the two tests of R92 that come before its own. -/
theorem leadRI_test (w : Bool) (r : BitVec 3) :
    leadRI w r &&& 0xFC#8 ≠ 0x88#8 ∧ leadRI w r &&& 0xFE#8 ≠ 0xC6#8 ∧ leadRI w r &&& 0xF0#8 = 0xB0#8 := by
  revert w r; decide

/-- What the row of `b` satisfies where the byte is `b`, and the rows behind it satisfy, the longer table satisfies. -/
theorem forall_row_cons {b0 b : Byte} {row : Byte → Instr} {rows : Option (Byte → Instr)}
    {P : (Byte → Instr) → Prop} (hrow : b0 = b → P row) (hrows : ∀ mk, rows = some mk → P mk) :
    ∀ mk, (if b0 = b then some row else rows) = some mk → P mk := by
  intro mk h
  split at h
  · next hb => cases h; exact hrow hb
  · exact hrows mk h

theorem decode_of_jumpRow {b0 : Byte} :
    ∀ mk, jumpRow b0 = some mk → ∀ c, decode (b0 :: c) = decodeJump mk c := by
  unfold jumpRow
  iterate 20 refine forall_row_cons (fun hb _ => hb ▸ rfl) ?_
  exact fun _ h => nomatch h

/-- The decoder hands the bytes behind the leading byte to the reader of its format. -/
theorem Dispatch.decode_cons {b0 : Byte} {r : Byte → Cursor → Read Instr} (h : Dispatch b0 r) (c : Cursor) :
    decode (b0 :: c) = r b0 c := by
  cases h with
  | formatRM row d w => cases row <;> cases d <;> cases w <;> rfl
  | formatAI row w => cases row <;> cases w <;> rfl
  | formatG1 s w => cases s <;> cases w <;> rfl
  | formatMI w => cases w <;> rfl
  | formatRI w r =>
    obtain ⟨hFC, hFE, hF0⟩ := leadRI_test w r
    rw [decode, if_neg hFC, if_neg hFE, if_pos hF0]
  | formatAM row w => cases row <;> cases w <;> rfl
  | @formatJ _ mk row =>
    exact decode_of_jumpRow mk row c
  | formatN h =>
    obtain ⟨hFC, hFE, hF0, hjump⟩ := no_test_of_not_recognised b0 h
    simp only [List.mem_cons, List.not_mem_nil, or_false, not_or] at hFC hFE
    simp only [decode, hFC, hFE, hF0, if_false, Option.isNone_iff_eq_none.mp hjump]

/-- The fields of a leading byte that ends in two flags make it up. -/
theorem lead2_of_fields (b0 : Byte) : lead2 (field b0 0 6) (flagAt b0 6) (flagAt b0 7) = b0 := by
  revert b0; decide

/-- The fields of a leading byte that ends in one flag make it up. -/
theorem lead1_of_fields (b0 : Byte) : lead1 (field b0 0 7) (flagAt b0 7) = b0 := by
  revert b0; decide

/-- The fields of a leading byte of format RI make it up. -/
theorem leadRI_of_fields (b0 : Byte) (h : field b0 0 4 = 0b1011#4) : leadRI (flagAt b0 4) (field b0 5 3) = b0 := by
  revert b0; decide

/-- The map of R66: the opcode bits of every byte are those of a format, or it is a byte of R67, or unsupported. -/
theorem opcode_map : ∀ b0 : Byte,
    field b0 0 6 ∈ [0b100010#6, 0b000000#6, 0b001010#6, 0b001110#6, 0b100000#6] ∨
    field b0 0 7 ∈ [0b0000010#7, 0b0010110#7, 0b0011110#7, 0b1100011#7, 0b1010000#7, 0b1010001#7] ∨
    field b0 0 4 = 0b1011#4 ∨ (jumpRow b0).isSome ∨ recognisedLead b0 = false := by decide

/-- Every leading byte belongs to a format. -/
theorem exists_dispatch (b0 : Byte) : ∃ r, Dispatch b0 r := by
  rcases opcode_map b0 with hop | hop | hop | hjump | hother
  · rw [← lead2_of_fields b0]
    simp only [List.mem_cons, List.not_mem_nil, or_false] at hop
    rcases hop with hop | hop | hop | hop | hop <;> rw [hop]
    exacts [⟨_, .formatRM .mov _ _⟩, ⟨_, .formatRM .add _ _⟩, ⟨_, .formatRM .sub _ _⟩, ⟨_, .formatRM .cmp _ _⟩,
      ⟨_, .formatG1 _ _⟩]
  · rw [← lead1_of_fields b0]
    simp only [List.mem_cons, List.not_mem_nil, or_false] at hop
    rcases hop with hop | hop | hop | hop | hop | hop <;> rw [hop]
    exacts [⟨_, .formatAI .add _⟩, ⟨_, .formatAI .sub _⟩, ⟨_, .formatAI .cmp _⟩, ⟨_, .formatMI _⟩,
      ⟨_, .formatAM .load _⟩, ⟨_, .formatAM .store _⟩]
  · rw [← leadRI_of_fields b0 hop]
    exact ⟨_, .formatRI _ _⟩
  · obtain ⟨mk, hmk⟩ := Option.isSome_iff_exists.mp hjump
    exact ⟨_, .formatJ hmk⟩
  · exact ⟨_, .formatN hother⟩

end Sys2Proof

/-! SUPPORT. The decoder and the encoder invert each other (30_encoding.md R60 to R64, log entry 12). -/

namespace Sys2Proof
open Machine

/-! ### From an instruction to its bytes and back -/

theorem RmRow.decodesTo {op : BitVec 6} {mk : Bool → Bool → BitVec 3 → RmField → Instr} (row : RmRow op mk)
    (d w : Bool) (reg : BitVec 3) {rm : RmField} (hwf : rm.wf = true) :
    DecodesTo (encodeRmR op d w reg rm) (mk d w reg rm) := by
  intro c
  refine ((Dispatch.formatRM row d w).decode_cons _).trans ?_
  simp [decodeRmR, readRm_encoded rm c hwf]

theorem AiRow.decodesTo {op : BitVec 7} {mk : ImmField → Instr} (row : AiRow op mk) (imm : ImmField) :
    DecodesTo (lead1 op imm.w :: imm.bytes) (mk imm) := by
  intro c
  refine ((Dispatch.formatAI row imm.w).decode_cons _).trans ?_
  simp [decodeAccImm]

theorem AmRow.decodesTo {op : BitVec 7} {mk : Bool → Word → Instr} (row : AmRow op mk) (w : Bool) (a : Word) :
    DecodesTo (lead1 op w :: wordBytes a) (mk w a) := by
  intro c
  refine ((Dispatch.formatAM row w).decode_cons _).trans ?_
  simp [decodeAccMem]

theorem decodesTo_encodeGroup {sub : BitVec 3} {mk : RmField → GroupImm → Instr} (row : groupRow sub = some mk)
    {rm : RmField} (hwf : rm.wf = true) (imm : GroupImm) : DecodesTo (encodeGroup sub rm imm) (mk rm imm) := by
  intro c
  refine ((Dispatch.formatG1 imm.s imm.w).decode_cons _).trans ?_
  simp [decodeGroup, row, readRm_encoded rm _ hwf]

theorem decodesTo_encode_movRmImm (x : BitVec 3) {rm : RmField} (hwf : rm.wf = true) (imm : ImmField) :
    DecodesTo (encode (.movRmImm x rm imm)) (.movRmImm x rm imm) := by
  intro c
  refine ((Dispatch.formatMI imm.w).decode_cons _).trans ?_
  simp [decodeMovRmImm, readRm_encoded rm _ hwf]

theorem decodesTo_encode_movRImm (r : BitVec 3) (imm : ImmField) :
    DecodesTo (encode (.movRImm r imm)) (.movRImm r imm) := by
  intro c
  refine ((Dispatch.formatRI imm.w r).decode_cons _).trans ?_
  simp [decodeMovRImm]

/-- The encoding of a well-formed supported instruction stands for it, format by format. -/
theorem decodesTo_encode {i : Instr} (hwf : i.wf = true) (hn : isNoop i = false) : DecodesTo (encode i) i := by
  cases i with
  | movRmR d w reg rm => exact RmRow.mov.decodesTo d w reg hwf
  | addRmR d w reg rm => exact RmRow.add.decodesTo d w reg hwf
  | subRmR d w reg rm => exact RmRow.sub.decodesTo d w reg hwf
  | cmpRmR d w reg rm => exact RmRow.cmp.decodesTo d w reg hwf
  | addAccImm imm => exact AiRow.add.decodesTo imm
  | subAccImm imm => exact AiRow.sub.decodesTo imm
  | cmpAccImm imm => exact AiRow.cmp.decodesTo imm
  | addRmImm rm imm => exact decodesTo_encodeGroup rfl hwf imm
  | subRmImm rm imm => exact decodesTo_encodeGroup rfl hwf imm
  | cmpRmImm rm imm => exact decodesTo_encodeGroup rfl hwf imm
  | movRmImm x rm imm => exact decodesTo_encode_movRmImm x hwf imm
  | movRImm r imm => exact decodesTo_encode_movRImm r imm
  | movAccMem w a => exact AmRow.load.decodesTo w a
  | movMemAcc w a => exact AmRow.store.decodesTo w a
  | noop cause => cases hn
  | _ => exact fun _ => rfl

/-- A sub-field has no row exactly where R68 supports none. -/
theorem groupRow_isNone (b1 : Byte) : (groupRow (field b1 2 3)).isNone = !supportedSub (b1.toNat / 8 % 8) := by
  revert b1; decide

/-- A well-formed Noop is read from its byte and, for an unsupported sub-field, the mode byte behind it. -/
theorem decode_encode_noop {cause : NoopCause} (hwf : cause.wf = true) (c : Cursor) :
    decode (encode (.noop cause) ++ (lookahead (.noop cause) ++ c)) =
      .got (.noop cause) (lookahead (.noop cause) ++ c) := by
  cases cause with
  | leading b0 =>
    have hlead : recognisedLead b0 = false := by simpa [NoopCause.wf] using hwf
    exact (Dispatch.formatN hlead).decode_cons c
  | group s w b1 =>
    have hrow : groupRow (field b1 2 3) = none := Option.isNone_iff_eq_none.mp ((groupRow_isNone b1).trans hwf)
    refine ((Dispatch.formatG1 s w).decode_cons (b1 :: c)).trans ?_
    simp [decodeGroup, hrow, lookahead]

theorem lookahead_of_not_noop {i : Instr} (hn : isNoop i = false) : lookahead i = [] := by
  cases i with
  | noop cause => cases hn
  | _ => rfl

/-- Settles O2: a supported instruction looks at nothing beyond its encoding; a Noop at its mode byte at most. -/
theorem decodeOfEncode : Obligations.DecodeOfEncode := by
  intro i c hwf
  cases hn : isNoop i with
  | false => rw [lookahead_of_not_noop hn]; exact decodesTo_encode hwf hn c
  | true =>
    cases i with
    | noop cause => exact decode_encode_noop hwf c
    | _ => cases hn

/-! ### What the decoder has read when it answers -/

/-- `bs` is the whole of what the decoder looks at for the well-formed instruction `i`: its encoding. -/
def Encodes (bs : List Byte) (i : Instr) : Prop := i.wf = true ∧ encode i = bs ∧ lookahead i = []

/-- The bytes `bs` are the encoding of the well-formed `i` and then `c`, which begins with the byte `i` peeks at. -/
def EncodedBefore (bs : List Byte) (i : Instr) (c : Cursor) : Prop :=
  i.wf = true ∧ bs = encode i ++ c ∧ lookahead i <+: c

theorem Encodes.before {bs : List Byte} {i : Instr} (h : Encodes bs i) (c : Cursor) : EncodedBefore (bs ++ c) i c := by
  obtain ⟨hwf, rfl, hlook⟩ := h
  exact ⟨hwf, rfl, hlook ▸ List.nil_prefix⟩

theorem RmRow.encodes {op : BitVec 6} {mk : Bool → Bool → BitVec 3 → RmField → Instr} (row : RmRow op mk)
    (d w : Bool) (reg : BitVec 3) {rm : RmField} (hwf : rm.wf = true) :
    Encodes (encodeRmR op d w reg rm) (mk d w reg rm) := by
  cases row <;> exact ⟨hwf, rfl, rfl⟩

theorem AiRow.encodes {op : BitVec 7} {mk : ImmField → Instr} (row : AiRow op mk) (imm : ImmField) :
    Encodes (lead1 op imm.w :: imm.bytes) (mk imm) := by
  cases row <;> exact ⟨rfl, rfl, rfl⟩

theorem AmRow.encodes {op : BitVec 7} {mk : Bool → Word → Instr} (row : AmRow op mk) (w : Bool) (a : Word) :
    Encodes (lead1 op w :: wordBytes a) (mk w a) := by
  cases row <;> exact ⟨rfl, rfl, rfl⟩

theorem encodes_of_groupRow {sub : BitVec 3} {mk : RmField → GroupImm → Instr} (row : groupRow sub = some mk)
    {rm : RmField} (hwf : rm.wf = true) (imm : GroupImm) : Encodes (encodeGroup sub rm imm) (mk rm imm) := by
  unfold groupRow at row
  split_ifs at row <;> (cases row; subst sub; exact ⟨hwf, rfl, rfl⟩)

theorem encodes_of_jumpRow {b0 : Byte} : ∀ mk, jumpRow b0 = some mk → ∀ inc, Encodes [b0, inc] (mk inc) := by
  unfold jumpRow
  iterate 20 refine forall_row_cons (fun hb _ => hb ▸ ⟨rfl, rfl, rfl⟩) ?_
  exact fun _ h => nomatch h

/-- A mode byte and what the reader of displacements reads for it are what the encoder writes. -/
theorem modeByte_of_readRm {b1 : Byte} {c c' : Cursor} {rm : RmField}
    (h : readRm (field b1 0 2) (field b1 5 3) c = .got rm c') :
    rm.wf = true ∧ b1 = modeByte rm (field b1 2 3) ∧ c = rm.dispBytes ++ c' := by
  obtain ⟨hwf, hmod, hrm, hc⟩ := readRm_eq_got h
  exact ⟨hwf, by rw [modeByte, hmod, hrm, append_of_fields], hc⟩

/-- A mode byte, its displacement and a further reader: what stands in front of the bytes that reader began with. -/
theorem mode_andThen_eq_got {α : Type} {f : Byte → RmField → Cursor → Read α} {c c' : Cursor} {v : α}
    (h : ((next c).andThen fun b1 c => (readRm (field b1 0 2) (field b1 5 3) c).andThen (f b1)) = .got v c') :
    ∃ b1 rm c₁, rm.wf = true ∧ c = modeByte rm (field b1 2 3) :: (rm.dispBytes ++ c₁) ∧ f b1 rm c₁ = .got v c' := by
  obtain ⟨b1, c₀, hb1, hread⟩ := Read.andThen_eq_got h
  obtain ⟨rm, c₁, hrm, hf⟩ := Read.andThen_eq_got hread
  obtain ⟨hwf, hmode, rfl⟩ := modeByte_of_readRm hrm
  exact ⟨b1, rm, c₁, hwf, hmode ▸ next_eq_got hb1, hf⟩

/-- Format G1 answers the instruction of its row, or, where the sub-field has none, a Noop before the mode byte. -/
theorem decodeGroup_encodedBefore {s w : Bool} {c c' : Cursor} {i : Instr}
    (h : decodeGroup (lead2 0b100000#6 s w) c = .got i c') : EncodedBefore (lead2 0b100000#6 s w :: c) i c' := by
  cases c with
  | nil => cases h
  | cons b1 c =>
    simp only [decodeGroup, peek_cons, next_cons, Read.got_andThen, flagAt_lead2_six, flagAt_lead2_seven] at h
    cases hrow : groupRow (field b1 2 3) with
    | none =>
      rw [hrow] at h
      cases h
      have hsub := groupRow_isNone b1
      rw [hrow] at hsub
      exact ⟨hsub.symm, rfl, ⟨c, rfl⟩⟩
    | some mk =>
      rw [hrow] at h
      obtain ⟨rm, c₁, hrm, hread⟩ := Read.andThen_eq_got h
      obtain ⟨imm, c₂, himm, hgot⟩ := Read.andThen_eq_got hread
      cases hgot
      obtain ⟨hwf, hmode, rfl⟩ := modeByte_of_readRm hrm
      obtain ⟨rfl, rfl, rfl⟩ := readGroupImm_eq_got himm
      have hbytes := (encodes_of_groupRow hrow hwf imm).before c'
      simpa only [encodeGroup, ← hmode, List.cons_append, List.append_assoc] using hbytes

/-- What the reader of each format has read when it answers. -/
theorem Dispatch.encodedBefore {b0 : Byte} {r : Byte → Cursor → Read Instr} (hd : Dispatch b0 r) {c c' : Cursor}
    {i : Instr} (h : r b0 c = .got i c') : EncodedBefore (b0 :: c) i c' := by
  cases hd with
  | formatRM row d w =>
    obtain ⟨b1, rm, c₁, hwf, rfl, hgot⟩ := mode_andThen_eq_got h
    cases hgot
    rw [flagAt_lead2_six, flagAt_lead2_seven]
    exact (row.encodes d w _ hwf).before c'
  | formatAI row w =>
    obtain ⟨imm, c₁, himm, hgot⟩ := Read.andThen_eq_got h
    cases hgot
    obtain ⟨hw, rfl⟩ := readImm_eq_got himm
    rw [flagAt_lead1_seven] at hw
    exact hw ▸ (row.encodes imm).before c'
  | formatG1 s w => exact decodeGroup_encodedBefore h
  | formatMI w =>
    obtain ⟨b1, rm, c₁, hwf, rfl, hread⟩ := mode_andThen_eq_got h
    obtain ⟨imm, c₂, himm, hgot⟩ := Read.andThen_eq_got hread
    cases hgot
    obtain ⟨hw, rfl⟩ := readImm_eq_got himm
    rw [flagAt_lead1_seven] at hw
    exact ⟨hwf, by simp [encode, hw], List.nil_prefix⟩
  | formatRI w r =>
    obtain ⟨imm, c₁, himm, hgot⟩ := Read.andThen_eq_got h
    cases hgot
    obtain ⟨hw, rfl⟩ := readImm_eq_got himm
    rw [flagAt_leadRI_four] at hw
    exact ⟨rfl, by simp [encode, hw], List.nil_prefix⟩
  | formatAM row w =>
    obtain ⟨a, c₁, ha, hgot⟩ := Read.andThen_eq_got h
    cases hgot
    obtain rfl := nextWord_eq_got ha
    rw [flagAt_lead1_seven]
    exact (row.encodes w a).before c'
  | @formatJ _ mk row =>
    obtain ⟨inc, c₁, hinc, hgot⟩ := Read.andThen_eq_got h
    cases hgot
    obtain rfl := next_eq_got hinc
    exact (encodes_of_jumpRow mk row inc).before c'
  | formatN hlead =>
    cases h
    exact ⟨by simp [Instr.wf, NoopCause.wf, hlead], rfl, List.nil_prefix⟩

/-- Settles O3, by the format of the leading byte. -/
theorem encodeOfDecode : Obligations.EncodeOfDecode := by
  intro bs i c h
  cases bs with
  | nil => cases h
  | cons b0 bs =>
    obtain ⟨r, hr⟩ := exists_dispatch b0
    exact hr.encodedBefore ((hr.decode_cons bs).symm.trans h)

end Sys2Proof

/-! SUPPORT. The length of an instruction and the bytes that decide it (30_encoding.md R60, R63 to R65). -/

namespace Sys2Proof
open Machine

/-! ### The bytes an encoding demands, from its first two -/

/-- The immediate bytes are one and, for a word, one more (R64). -/
theorem ImmField.len_eq (imm : ImmField) : imm.len = 1 + imm.w.toNat := by
  cases imm <;> rfl

theorem lenImm_eq (imm : ImmField) : lenImm imm = 2 + imm.w.toNat := by
  rw [lenImm, imm.len_eq, ← Nat.add_assoc]

theorem lenMI_eq (rm : RmField) (imm : ImmField) : lenMI rm imm = 2 + rm.dispLen + 1 + imm.w.toNat := by
  rw [lenMI, imm.len_eq, ← Nat.add_assoc]

/-- Two immediate bytes only for a word that is not sign-extended (R64). -/
theorem GroupImm.len_eq (imm : GroupImm) : imm.len = if imm.w && !imm.s then 2 else 1 := by
  cases imm <;> rfl

/-- The three fields of a mode byte as numbers (R62). -/
theorem modeByte_fields_toNat (b1 : Byte) :
    b1.toNat / 64 = (field b1 0 2).toNat ∧ b1.toNat / 8 % 8 = (field b1 2 3).toNat ∧
      b1.toNat % 8 = (field b1 5 3).toNat := by
  revert b1; decide

/-- The mode byte tells the number of displacement bytes. -/
theorem modeDisp_modeByte {rm : RmField} (reg : BitVec 3) (hwf : rm.wf = true) :
    modeDisp (modeByte rm reg) = rm.dispLen := by
  obtain ⟨hmod, -, hrm⟩ := modeByte_fields_toNat (modeByte rm reg)
  rw [field_modeByte_mod] at hmod
  rw [field_modeByte_rm] at hrm
  unfold modeDisp
  rw [hmod, hrm]
  cases rm with
  | base r =>
    have hr : r.toNat ≠ 6 := fun h => by
      have : r = 0b110#3 := BitVec.eq_of_toNat_eq h
      simp [RmField.wf, this] at hwf
    exact if_neg hr
  | _ => rfl

theorem RmRow.demanded {op : BitVec 6} {mk : Bool → Bool → BitVec 3 → RmField → Instr} (row : RmRow op mk)
    (d w : Bool) (reg : BitVec 3) {rm : RmField} (hwf : rm.wf = true) :
    demanded (lead2 op d w) (some (modeByte rm reg)) = lenRM rm := by
  rw [lenRM, ← modeDisp_modeByte reg hwf]
  cases row <;> cases d <;> cases w <;> rfl

theorem AiRow.demanded {op : BitVec 7} {mk : ImmField → Instr} (row : AiRow op mk) (imm : ImmField)
    (b1 : Option Byte) : demanded (lead1 op imm.w) b1 = lenImm imm := by
  rw [lenImm_eq]
  generalize imm.w = w
  cases row <;> cases w <;> rfl

theorem AmRow.demanded {op : BitVec 7} {mk : Bool → Word → Instr} (row : AmRow op mk) (w : Bool)
    (b1 : Option Byte) : demanded (lead1 op w) b1 = lenAM := by
  cases row <;> cases w <;> rfl

theorem demanded_leadRI (r : BitVec 3) (imm : ImmField) (b1 : Option Byte) :
    demanded (leadRI imm.w r) b1 = lenImm imm := by
  rw [lenImm_eq]
  generalize imm.w = w
  fin_cases r <;> cases w <;> rfl

theorem demanded_movRmImm (x : BitVec 3) {rm : RmField} (hwf : rm.wf = true) (imm : ImmField) :
    demanded (lead1 0b1100011#7 imm.w) (some (modeByte rm x)) = lenMI rm imm := by
  rw [lenMI_eq, ← modeDisp_modeByte x hwf]
  generalize imm.w = w
  cases w <;> rfl

/-- Format G1 demands more than two bytes only where the sub-field is supported. -/
theorem demanded_lead2_group (s w : Bool) (b1 : Byte) :
    demanded (lead2 0b100000#6 s w) (some b1) =
      if b1.toNat / 8 % 8 ∈ [0, 5, 7] then 2 + modeDisp b1 + (if w && !s then 2 else 1) else 2 := by
  cases s <;> cases w <;> rfl

theorem demanded_group {sub : BitVec 3} (hsub : sub.toNat ∈ [0, 5, 7]) {rm : RmField} (hwf : rm.wf = true)
    (imm : GroupImm) :
    demanded (lead2 0b100000#6 imm.s imm.w) (some (modeByte rm sub)) = lenG1 rm imm := by
  obtain ⟨-, hreg, -⟩ := modeByte_fields_toNat (modeByte rm sub)
  rw [field_modeByte_reg] at hreg
  rw [demanded_lead2_group, if_pos (hreg ▸ hsub), modeDisp_modeByte sub hwf, lenG1, GroupImm.len_eq]

/-- The first two bytes of the encoding of a supported instruction demand its length. -/
theorem demanded_encode {i : Instr} (hwf : i.wf = true) (hn : isNoop i = false) {b0 : Byte} {bs c : List Byte}
    (h : b0 :: bs = encode i ++ c) : demanded b0 bs.head? = i.length := by
  cases i with
  | movRmR d w reg rm => cases h; exact RmRow.mov.demanded d w reg hwf
  | addRmR d w reg rm => cases h; exact RmRow.add.demanded d w reg hwf
  | subRmR d w reg rm => cases h; exact RmRow.sub.demanded d w reg hwf
  | cmpRmR d w reg rm => cases h; exact RmRow.cmp.demanded d w reg hwf
  | addAccImm imm => cases h; exact AiRow.add.demanded imm _
  | subAccImm imm => cases h; exact AiRow.sub.demanded imm _
  | cmpAccImm imm => cases h; exact AiRow.cmp.demanded imm _
  | addRmImm rm imm => cases h; exact demanded_group (by decide) hwf imm
  | subRmImm rm imm => cases h; exact demanded_group (by decide) hwf imm
  | cmpRmImm rm imm => cases h; exact demanded_group (by decide) hwf imm
  | movRmImm x rm imm => cases h; exact demanded_movRmImm x hwf imm
  | movRImm r imm => cases h; exact demanded_leadRI r imm _
  | movAccMem w a => cases h; exact AmRow.load.demanded w _
  | movMemAcc w a => cases h; exact AmRow.store.demanded w _
  | noop cause => cases hn
  | _ => cases h; rfl

/-! ### The bounds -/

theorem RmField.dispLen_le (rm : RmField) : rm.dispLen ≤ 2 := by
  cases rm <;> simp [RmField.dispLen]

theorem ImmField.len_bounds (imm : ImmField) : 1 ≤ imm.len ∧ imm.len ≤ 2 := by
  cases imm <;> simp [ImmField.len]

theorem GroupImm.len_bounds (imm : GroupImm) : 1 ≤ imm.len ∧ imm.len ≤ 2 := by
  cases imm <;> simp [GroupImm.len]

theorem lenRM_bounds (rm : RmField) : 1 ≤ lenRM rm ∧ lenRM rm ≤ 6 := by
  have := rm.dispLen_le
  unfold lenRM; omega

theorem lenImm_bounds (imm : ImmField) : 1 ≤ lenImm imm ∧ lenImm imm ≤ 6 := by
  have := imm.len_bounds
  unfold lenImm; omega

theorem lenG1_bounds (rm : RmField) (imm : GroupImm) : 1 ≤ lenG1 rm imm ∧ lenG1 rm imm ≤ 6 := by
  have := rm.dispLen_le
  have := imm.len_bounds
  unfold lenG1; omega

theorem lenMI_bounds (rm : RmField) (imm : ImmField) : 1 ≤ lenMI rm imm ∧ lenMI rm imm ≤ 6 := by
  have := rm.dispLen_le
  have := imm.len_bounds
  unfold lenMI; omega

/-- An instruction is 1 to 6 bytes long (R60), by the formula of its format. -/
theorem Instr.length_bounds (i : Instr) : 1 ≤ i.length ∧ i.length ≤ 6 := by
  cases i with
  | movRmR d w reg rm => exact lenRM_bounds rm
  | addRmR d w reg rm => exact lenRM_bounds rm
  | subRmR d w reg rm => exact lenRM_bounds rm
  | cmpRmR d w reg rm => exact lenRM_bounds rm
  | addAccImm imm => exact lenImm_bounds imm
  | subAccImm imm => exact lenImm_bounds imm
  | cmpAccImm imm => exact lenImm_bounds imm
  | movRImm r imm => exact lenImm_bounds imm
  | addRmImm rm imm => exact lenG1_bounds rm imm
  | subRmImm rm imm => exact lenG1_bounds rm imm
  | cmpRmImm rm imm => exact lenG1_bounds rm imm
  | movRmImm x rm imm => exact lenMI_bounds rm imm
  | _ => simp [Instr.length, lenAM, lenJ, lenN]

theorem Instr.length_of_noop {i : Instr} (hn : isNoop i = true) : i.length = 1 := by
  cases i with
  | noop cause => rfl
  | _ => cases hn

/-- Settles O5: what decodes begins with its encoding, whose first two bytes demand its length; and the one step that
leaves the run running is the one that emits. -/
theorem firstTwoBytesTellTheLength : Obligations.FirstTwoBytesTellTheLength := by
  refine ⟨fun b0 bs i c h => ?_, fun s t _ h hrun => ?_⟩
  · obtain ⟨hwf, hbytes, -⟩ := encodeOfDecode _ i c h
    refine ⟨?_, i.length_bounds⟩
    cases hn : isNoop i with
    | false => exact (demanded_encode hwf hn hbytes).symm
    | true => exact Instr.length_of_noop hn
  · obtain ⟨-, ⟨-, rfl⟩ | ⟨i, c, hd, -, rfl⟩ | ⟨n, e, -, -, rfl⟩⟩ := step_finishes_emits_or_fails h
    · cases hrun
    · exact ⟨i, c, hd, rfl⟩
    · cases hrun

/-! ### Six bytes decide (R65) -/

/-- No instruction looks at more than six bytes: a Noop at two, any other at what it consumes. -/
theorem Instr.reach_le (i : Instr) : i.reach ≤ maxInstrBytes := by
  cases hn : isNoop i with
  | false => rw [Instr.reach_of_not_noop hn]; exact i.length_bounds.2
  | true =>
    cases i with
    | noop cause => cases cause <;> simp [Instr.reach, Instr.length, lenN, lookahead, maxInstrBytes]
    | _ => cases hn

/-- The answer of the decoder on some bytes is its answer on more of them. -/
theorem decode_append_of_got {bs c : Cursor} {i : Instr} (h : decode bs = .got i c) (d : Cursor) :
    ∃ c', decode (bs ++ d) = .got i c' := by
  obtain ⟨u, e, rfl, -, hu⟩ := decode_looksAtReach bs i c h
  rw [List.append_assoc]
  exact hu (e ++ d)

/-- Six bytes are enough for an answer. -/
theorem decode_take_of_got {bs c : Cursor} {i : Instr} (h : decode bs = .got i c) :
    ∃ c', decode (bs.take maxInstrBytes) = .got i c' := by
  obtain ⟨u, e, rfl, hlen, hu⟩ := decode_looksAtReach bs i c h
  have hle : u.length ≤ maxInstrBytes := by have := i.reach_le; omega
  obtain ⟨n, hn⟩ := Nat.exists_eq_add_of_le hle
  rw [hn, List.take_length_add_append]
  exact hu _

/-- The only stop of the reader is the missing byte. -/
def StopsTruncated {α : Type} (r : Read α) : Prop := ∀ q, r = .stop q → q = .truncated

theorem StopsTruncated.got {α : Type} (v : α) (c : Cursor) : StopsTruncated (.got v c) := nofun

theorem StopsTruncated.andThen {α β : Type} {r : Read α} {f : α → Cursor → Read β} (hr : StopsTruncated r)
    (hf : ∀ v c, StopsTruncated (f v c)) : StopsTruncated (r.andThen f) := by
  intro q h
  rcases Read.andThen_eq_stop h with hstop | ⟨v, c, -, hstop⟩
  · exact hr q hstop
  · exact hf v c q hstop

theorem next_stopsTruncated (c : Cursor) : StopsTruncated (next c) := fun _ h => (next_eq_stop h).2

theorem nextWord_stopsTruncated (c : Cursor) : StopsTruncated (nextWord c) := fun _ h => (nextWord_eq_stop h).2

theorem readRm_stopsTruncated (m : BitVec 2) (r : BitVec 3) (c : Cursor) : StopsTruncated (readRm m r c) := by
  unfold readRm
  split_ifs
  · exact .got _ _
  · exact (nextWord_stopsTruncated c).andThen fun _ _ => .got _ _
  · exact .got _ _
  · exact (next_stopsTruncated c).andThen fun _ _ => .got _ _
  · exact (nextWord_stopsTruncated c).andThen fun _ _ => .got _ _

theorem readImm_stopsTruncated (w : Bool) (c : Cursor) : StopsTruncated (readImm w c) := by
  unfold readImm
  split
  · exact (nextWord_stopsTruncated c).andThen fun _ _ => .got _ _
  · exact (next_stopsTruncated c).andThen fun _ _ => .got _ _

theorem readGroupImm_stopsTruncated (s w : Bool) (c : Cursor) : StopsTruncated (readGroupImm s w c) := by
  unfold readGroupImm
  split_ifs
  · exact (next_stopsTruncated c).andThen fun _ _ => .got _ _
  · exact (nextWord_stopsTruncated c).andThen fun _ _ => .got _ _
  · exact (next_stopsTruncated c).andThen fun _ _ => .got _ _

theorem Dispatch.stopsTruncated {b0 : Byte} {r : Byte → Cursor → Read Instr} (hd : Dispatch b0 r) (c : Cursor) :
    StopsTruncated (r b0 c) := by
  cases hd with
  | formatRM row d w =>
    exact (next_stopsTruncated c).andThen fun _ _ => (readRm_stopsTruncated _ _ _).andThen fun _ _ => .got _ _
  | formatAI row w => exact (readImm_stopsTruncated _ c).andThen fun _ _ => .got _ _
  | formatG1 s w =>
    refine StopsTruncated.andThen (fun _ h => (peek_eq_stop h).2) fun b1 c => ?_
    split
    · exact .got _ _
    · exact (next_stopsTruncated c).andThen fun _ _ => (readRm_stopsTruncated _ _ _).andThen fun _ _ =>
        (readGroupImm_stopsTruncated _ _ _).andThen fun _ _ => .got _ _
  | formatMI w =>
    exact (next_stopsTruncated c).andThen fun _ _ => (readRm_stopsTruncated _ _ _).andThen fun _ _ =>
      (readImm_stopsTruncated _ _).andThen fun _ _ => .got _ _
  | formatRI w r => exact (readImm_stopsTruncated _ c).andThen fun _ _ => .got _ _
  | formatAM row w => exact (nextWord_stopsTruncated c).andThen fun _ _ => .got _ _
  | formatJ row => exact (next_stopsTruncated c).andThen fun _ _ => .got _ _
  | formatN hlead => exact .got _ _

/-- Behind a leading byte the decoder stops for a missing byte only. -/
theorem decode_cons_stopsTruncated (b0 : Byte) (c : Cursor) : StopsTruncated (decode (b0 :: c)) := by
  obtain ⟨r, hr⟩ := exists_dispatch b0
  rw [hr.decode_cons c]
  exact hr.stopsTruncated c

/-- Settles O6: were there an answer on the first six bytes, it would be the answer on all of them; and a stop behind
a leading byte has one reason. -/
theorem sixBytesSuffice : Obligations.SixBytesSuffice := by
  refine fun bs => ⟨fun i c => decode_take_of_got, fun q h => ?_⟩
  cases bs with
  | nil => exact h
  | cons b0 bs =>
    cases hsix : decode ((b0 :: bs).take maxInstrBytes) with
    | got i c =>
      obtain ⟨c', hc'⟩ := decode_append_of_got hsix ((b0 :: bs).drop maxInstrBytes)
      rw [List.take_append_drop, h] at hc'
      cases hc'
    | stop q' =>
      rw [decode_cons_stopsTruncated b0 bs q h, decode_cons_stopsTruncated b0 _ q' hsix]

/-! ### Words written out (R61, R62, R67, R71) -/

/-- Settles O1: the decoder evaluated on the ten words. -/
theorem decodeReadsSpecEncodings : Obligations.DecodeReadsSpecEncodings := by
  unfold Obligations.DecodeReadsSpecEncodings
  decide

/-- Settles O8: each word decoded, and the values and texts compared. -/
theorem redundantEncodingsAgree : Obligations.RedundantEncodingsAgree := by
  refine ⟨⟨_, _, _, rfl, rfl, rfl, by decide⟩, ⟨_, _, rfl, rfl, by decide⟩, ⟨_, _, rfl, rfl, by decide⟩,
    ⟨_, _, rfl, rfl, by decide⟩, ⟨_, _, rfl, rfl, by decide⟩, ⟨_, _, rfl, rfl, rfl, rfl, ?_⟩⟩
  rw [List.forall_mem_cons, List.forall_mem_singleton]
  exact ⟨fun _ => rfl, fun _ => rfl⟩

end Sys2Proof

/-! SUPPORT. The tests on the leading byte, each taken alone (40_dispatch.md R92). -/

namespace Sys2Proof

/-! ### A test and the opcode bits it fixes -/

/-- A byte that passes a test of its upper six bits ends in two flags behind them. -/
theorem lead2_of_mask {b0 : Byte} {op : BitVec 6} (h : b0 &&& 0xFC#8 = (op ++ 0#2 : Byte)) :
    lead2 op (flagAt b0 6) (flagAt b0 7) = b0 := by
  have hmask : ∀ b : Byte, field (b &&& 0xFC#8) 0 6 = field b 0 6 := by decide
  have happend : ∀ op : BitVec 6, field (op ++ 0#2 : Byte) 0 6 = op := by decide
  rw [← happend op, ← h, hmask, lead2_of_fields]

/-- A byte that passes a test of its upper seven bits ends in one flag behind them. -/
theorem lead1_of_mask {b0 : Byte} {op : BitVec 7} (h : b0 &&& 0xFE#8 = (op ++ 0#1 : Byte)) :
    lead1 op (flagAt b0 7) = b0 := by
  have hmask : ∀ b : Byte, field (b &&& 0xFE#8) 0 7 = field b 0 7 := by decide
  have happend : ∀ op : BitVec 7, field (op ++ 0#1 : Byte) 0 7 = op := by decide
  rw [← happend op, ← h, hmask, lead1_of_fields]

theorem leadRI_of_mask {b0 : Byte} (h : b0 &&& 0xF0#8 = 0xB0#8) : leadRI (flagAt b0 4) (field b0 5 3) = b0 := by
  have hmask : ∀ b : Byte, field (b &&& 0xF0#8) 0 4 = field b 0 4 := by decide
  exact leadRI_of_fields b0 (hmask b0 ▸ h ▸ rfl)

/-! ### The readers the tests hand over to -/

theorem decode_cons_of_rmRow {b0 : Byte} {op : BitVec 6} {mk : Bool → Bool → BitVec 3 → RmField → Instr}
    (row : RmRow op mk) (h : b0 &&& 0xFC#8 = (op ++ 0#2 : Byte)) (c : Cursor) :
    decode (b0 :: c) = decodeRmR mk b0 c :=
  lead2_of_mask h ▸ (Dispatch.formatRM row _ _).decode_cons c

theorem decode_cons_of_aiRow {b0 : Byte} {op : BitVec 7} {mk : ImmField → Instr} (row : AiRow op mk)
    (h : b0 &&& 0xFE#8 = (op ++ 0#1 : Byte)) (c : Cursor) : decode (b0 :: c) = decodeAccImm mk b0 c :=
  lead1_of_mask h ▸ (Dispatch.formatAI row _).decode_cons c

theorem decode_cons_of_amRow {b0 : Byte} {op : BitVec 7} {mk : Bool → Word → Instr} (row : AmRow op mk)
    (h : b0 &&& 0xFE#8 = (op ++ 0#1 : Byte)) (c : Cursor) : decode (b0 :: c) = decodeAccMem mk b0 c :=
  lead1_of_mask h ▸ (Dispatch.formatAM row _).decode_cons c

theorem decode_cons_of_group {b0 : Byte} (h : b0 &&& 0xFC#8 = 0x80#8) (c : Cursor) :
    decode (b0 :: c) = decodeGroup b0 c :=
  lead2_of_mask (op := 0b100000#6) h ▸ (Dispatch.formatG1 _ _).decode_cons c

theorem decode_cons_of_movRmImm {b0 : Byte} (h : b0 &&& 0xFE#8 = 0xC6#8) (c : Cursor) :
    decode (b0 :: c) = decodeMovRmImm b0 c :=
  lead1_of_mask (op := 0b1100011#7) h ▸ (Dispatch.formatMI _).decode_cons c

theorem decode_cons_of_movRImm {b0 : Byte} (h : b0 &&& 0xF0#8 = 0xB0#8) (c : Cursor) :
    decode (b0 :: c) = decodeMovRImm b0 c :=
  leadRI_of_mask h ▸ (Dispatch.formatRI _ _).decode_cons c

/-- The last arm takes every byte that the map does not recognise (46_noop.md R200). -/
theorem decode_cons_of_not_recognised {b0 : Byte} (hlead : recognisedLead b0 = false) (c : Cursor) :
    decode (b0 :: c) = .got (.noop (.leading b0)) c :=
  (Dispatch.formatN hlead).decode_cons c

/-- Settles O4: a byte that passes a test is a leading byte of the test's format, and the decoder hands every such byte
to the format's reader. -/
theorem eachPatternDecidesAlone : Obligations.EachPatternDecidesAlone := by
  intro b0 c
  refine ⟨(decode_cons_of_rmRow .mov · c), (decode_cons_of_movRmImm · c), (decode_cons_of_movRImm · c),
    (decode_cons_of_amRow .load · c), (decode_cons_of_amRow .store · c), (decode_cons_of_rmRow .add · c),
    (decode_cons_of_rmRow .sub · c), (decode_cons_of_rmRow .cmp · c), (decode_cons_of_group · c),
    (decode_cons_of_aiRow .add · c), (decode_cons_of_aiRow .sub · c), (decode_cons_of_aiRow .cmp · c), ?_,
    (decode_cons_of_not_recognised · c)⟩
  iterate 20 refine List.forall_mem_cons.mpr ⟨fun hb => decode_of_jumpRow _ (hb ▸ rfl) c, ?_⟩
  exact nofun

end Sys2Proof

/-! SUPPORT. What a step does in a running state, by what stands at the cursor, and what every step keeps of the linear
decode (40_dispatch.md R91, R93). -/

namespace Sys2Proof.Machine

/-! ### The policy at an instruction (46_noop.md R202) -/

/-- Under the policy `p` the instruction is an error. -/
def rejects (p : Policy) (i : Instr) : Bool := isNoop i && p == .strictFail

theorem rejects_eq_true {p : Policy} {i : Instr} : rejects p i = true ↔ isNoop i = true ∧ p = .strictFail := by
  simp [rejects]

theorem rejects_eq_false {p : Policy} {i : Instr} :
    rejects p i = false ↔ (p = .strictFail → isNoop i = false) := by
  cases p <;> simp [rejects]

theorem rejects_of_not_noop {i : Instr} (p : Policy) (hn : isNoop i = false) : rejects p i = false := by
  simp [rejects, hn]

theorem rejects_lenient (i : Instr) : rejects .lenientSkipOneByte i = false := by simp [rejects]

/-- `s` after the raising of `UnsupportedEncoding`: the strict end of `unsupported`. -/
def State.reject (s : State) : State := (s.latch.advance lenN).raise (.unsupportedEncoding s.pos)

@[simp] theorem State.reject_status (s : State) : s.reject.status = .fault (.unsupportedEncoding s.pos) := rfl

/-- The meaning of an instruction whose bytes are there. -/
theorem exec_of_reach_le {i : Instr} {s : State} (h : s.pos + i.reach ≤ s.bufLen) :
    exec i s = .next (if rejects s.policy i then s.reject else s.emitted i.length (valueOf i)) := by
  cases hn : isNoop i with
  | false =>
    rw [Instr.reach_of_not_noop hn] at h
    rw [exec_eq_perform s hn, perform_of_le h, rejects_of_not_noop _ hn]
    rfl
  | true =>
    cases i with
    | noop cause =>
      rw [exec_noop, if_pos h]
      cases hp : s.policy with
      | lenientSkipOneByte => exact unsupported_lenient hp
      | strictFail => exact unsupported_strict hp
    | _ => cases hn

/-! ### The step of a running state -/

/-- The bytes of an instruction that the decoder reads at the cursor are in the buffer. -/
theorem reach_le_of_decode_window {s : State} {i : Instr} {c : Cursor} (hd : decode s.window = .got i c) :
    s.pos + i.reach ≤ s.bufLen := by
  obtain ⟨u, e, hwin, hlen, -⟩ := decode_looksAtReach _ i c hd
  have hu : u.length ≤ s.window.length := by simp [hwin]
  have hpos := i.length_bounds.1
  have hreach := Instr.length_le_reach i
  rw [State.window_length] at hu
  omega

theorem length_le_of_decode_window {s : State} {i : Instr} {c : Cursor} (hd : decode s.window = .got i c) :
    s.pos + i.length ≤ s.bufLen := by
  have hle := reach_le_of_decode_window hd
  have hreach := Instr.length_le_reach i
  omega

theorem pos_lt_of_decode_window {s : State} {i : Instr} {c : Cursor} (hd : decode s.window = .got i c) :
    s.pos < s.bufLen := by
  have hle := length_le_of_decode_window hd
  have hpos := i.length_bounds.1
  omega

/-- Settles O27, by the definition of the step. -/
theorem stepRunsTheDecodedInstruction : Obligations.StepRunsTheDecodedInstruction := by
  intro s i c hs hp hd
  rw [step_running hs, if_neg hp, hd]

theorem step_of_decode {s : State} {i : Instr} {c : Cursor} (hs : s.status = .running)
    (hd : decode s.window = .got i c) :
    step s = .next (if rejects s.policy i then s.reject else s.emitted i.length (valueOf i)) := by
  rw [stepRunsTheDecodedInstruction s i c hs (pos_lt_of_decode_window hd).ne hd,
    exec_of_reach_le (reach_le_of_decode_window hd)]

theorem step_of_rejected {s : State} {i : Instr} {c : Cursor} (hs : s.status = .running)
    (hd : decode s.window = .got i c) (hr : rejects s.policy i = true) : step s = .next s.reject := by
  rw [step_of_decode hs hd, if_pos hr]

theorem step_of_accepted {s : State} {i : Instr} {c : Cursor} (hs : s.status = .running)
    (hd : decode s.window = .got i c) (hr : rejects s.policy i = false) :
    step s = .next (s.emitted i.length (valueOf i)) := by
  rw [step_of_decode hs hd, hr]
  rfl

/-- The four cases of a step of the running state `s`, with the state it leaves. -/
inductive StepCase (s : State) : State → Prop where
  | atEnd (hp : s.pos = s.bufLen) : StepCase s s.finish
  | cut {r} (hp : s.pos ≠ s.bufLen) (hd : decode s.window = .stop r) : StepCase s s.truncate
  | rejected {i c} (hd : decode s.window = .got i c) (hr : rejects s.policy i = true) : StepCase s s.reject
  | accepted {i c} (hd : decode s.window = .got i c) (hr : rejects s.policy i = false) :
      StepCase s (s.emitted i.length (valueOf i))

/-- In a running state exactly one step is enabled, and it is one of the four (R91, R94). -/
theorem exists_step {s : State} (hs : s.status = .running) : ∃ t, step s = .next t ∧ StepCase s t := by
  by_cases hp : s.pos = s.bufLen
  · exact ⟨_, step_at_end hs hp, .atEnd hp⟩
  cases hd : decode s.window with
  | stop r => exact ⟨_, step_of_cut hs hp hd, .cut hp hd⟩
  | got i c =>
    cases hr : rejects s.policy i with
    | true => exact ⟨_, step_of_rejected hs hd hr, .rejected hd hr⟩
    | false => exact ⟨_, step_of_accepted hs hd hr, .accepted hd hr⟩

theorem stepCase_of_step {s t : State} (h : step s = .next t) : s.status = .running ∧ StepCase s t := by
  obtain ⟨hs, -⟩ := step_eq_next h
  obtain ⟨u, hu, hcase⟩ := exists_step hs
  rw [h] at hu
  cases hu
  exact ⟨hs, hcase⟩

/-- Where a byte stands at the cursor, the decoder stops for a missing byte only. -/
theorem decode_window_eq_truncated {s : State} {r : DecodeStop} (hp : s.pos < s.bufLen)
    (hd : decode s.window = .stop r) : decode s.window = .stop .truncated := by
  cases hw : s.window with
  | nil =>
    have hlen := s.window_length
    rw [hw, List.length_nil, maxInstrBytes] at hlen
    omega
  | cons b0 c =>
    rw [hw] at hd
    rw [hd, decode_cons_stopsTruncated b0 c r hd]

/-! ### The linear decode (R93, 60_exceptions.md R246) -/

theorem SameSupply.windowAt {s t : State} (h : SameSupply s t) (off : Nat) : t.windowAt off = s.windowAt off := by
  obtain ⟨hbuf, hlen, -⟩ := h
  exact State.windowAt_congr hbuf hlen off

/-- Which instructions stand in the buffer is a matter of the buffer alone. -/
theorem Consecutive.of_sameSupply {s t : State} (h : SameSupply s t) {off last : Nat} {is : List Instr}
    (hc : Consecutive s off is last) : Consecutive t off is last := by
  induction is generalizing off with
  | nil => exact hc
  | cons i is ih =>
    obtain ⟨⟨rest, hd⟩, hrest⟩ := hc
    exact ⟨⟨rest, h.windowAt off ▸ hd⟩, ih hrest⟩

theorem Consecutive.snoc {s : State} {off last : Nat} {is : List Instr} {i : Instr} {rest : Cursor}
    (hc : Consecutive s off is last) (hd : decode (s.windowAt last) = .got i rest) :
    Consecutive s off (is ++ [i]) (last + i.length) := by
  induction is generalizing off with
  | nil =>
    obtain rfl : off = last := hc
    exact ⟨⟨rest, hd⟩, rfl⟩
  | cons j is ih =>
    obtain ⟨hj, hrest⟩ := hc
    exact ⟨hj, ih hrest⟩

theorem State.boundary_of_running {s : State} (hs : s.status = .running) : s.boundary = s.pos := by
  simp [State.boundary, hs]

theorem isNoop_eq_true {i : Instr} (hn : isNoop i = true) : ∃ cause, i = .noop cause := by
  cases i with
  | noop cause => exact ⟨cause, rfl⟩
  | _ => cases hn

/-- Settles O45: a step that ends the run leaves the boundary where it was, the decoder's answer there being the reason
of an error; a step that emits adds the instruction that stands at the boundary. -/
theorem stepKeepsTheLinearDecode : Obligations.StepKeepsTheLinearDecode := by
  rintro s t ⟨⟨is, hcons, hout, hstrict⟩, hle, -⟩ h
  obtain ⟨hs, hcase⟩ := stepCase_of_step h
  have hsupply := step_sameSupply h
  have hwin : t.windowAt s.pos = s.window := hsupply.windowAt s.pos
  rw [State.boundary_of_running hs] at hcons hle
  have hcons' := hcons.of_sameSupply hsupply
  cases hcase with
  | atEnd hp => exact ⟨⟨is, hcons', hout, hstrict⟩, hle, trivial⟩
  | cut hp hd =>
    have hlt : s.pos < s.bufLen := by omega
    exact ⟨⟨is, hcons', hout, hstrict⟩, hle, hlt, hwin ▸ decode_window_eq_truncated hlt hd⟩
  | @rejected i c hd hr =>
    obtain ⟨hn, hp⟩ := rejects_eq_true.mp hr
    obtain ⟨cause, rfl⟩ := isNoop_eq_true hn
    exact ⟨⟨is, hcons', hout, hstrict⟩, hle, hp, cause, c, hwin ▸ hd⟩
  | @accepted i c hd hr =>
    have hb : (s.emitted i.length (valueOf i)).boundary = s.pos + i.length := State.boundary_of_running hs
    refine ⟨⟨is ++ [i], ?_, ?_, ?_⟩, ?_, ?_⟩
    · rw [hb]
      exact (hcons.snoc hd).of_sameSupply hsupply
    · simp [hout]
    · intro hp j hj
      rcases List.mem_append.mp hj with hold | hnew
      · exact hstrict hp j hold
      · exact List.mem_singleton.mp hnew ▸ rejects_eq_false.mp hr hp
    · rw [hb]
      exact length_le_of_decode_window hd
    · simp [FaultJustified, hs]

end Sys2Proof.Machine

/-! SUPPORT. Resynchronisation, and that every run ends (40_dispatch.md R94, R97). -/

namespace Sys2Proof.Machine

/-! ### Resynchronisation (R97) -/

theorem State.window_eq_cons {s : State} {b0 : Byte} (hb : s.readByte s.pos = some b0) : ∃ c, s.window = b0 :: c := by
  rw [← List.head?_eq_some_iff, List.head?_eq_getElem?, State.window_getElem?]
  exact hb

/-- Settles O39: the first step emits the one-byte Noop, the second finds the instruction at the next byte. -/
theorem resynchronisation : Obligations.Resynchronisation := by
  intro s b0 i c hs hp hb hlead hd hn
  obtain ⟨c0, hw⟩ := State.window_eq_cons hb
  have hfirst : step s = .next (s.emitted 1 .noop) :=
    step_of_accepted (i := .noop (.leading b0)) hs (hw ▸ decode_cons_of_not_recognised hlead c0)
      (hp ▸ rejects_lenient _)
  have hwin : (s.emitted 1 .noop).window = s.windowAt (s.pos + 1) := State.window_congr rfl rfl rfl
  exact ⟨_, _, hfirst, step_of_accepted hs (hwin ▸ hd) (rejects_of_not_noop _ hn), by simp, hs, rfl⟩

/-! ### Progress and termination (R94) -/

/-- A step ends the run, or moves the cursor forward inside the buffer. -/
theorem StepCase.progress {s t : State} (h : StepCase s t) :
    t.status ≠ .running ∨ (s.pos < t.pos ∧ t.pos ≤ t.bufLen) := by
  cases h with
  | atEnd hp => exact .inl nofun
  | cut hp hd => exact .inl nofun
  | rejected hd hr => exact .inl nofun
  | @accepted i c hd hr =>
    have hle := length_le_of_decode_window hd
    exact .inr ⟨Nat.lt_add_of_pos_right i.length_bounds.1, hle⟩

theorem runSteps_of_step {s t : State} (h : step s = .next t) (k : Nat) : runSteps (k + 1) s = runSteps k t := by
  rw [runSteps, h]

/-- A run that is over stays as it is. -/
theorem runSteps_of_over {s : State} (h : s.status ≠ .running) (k : Nat) : runSteps k s = s := by
  cases k with
  | zero => rfl
  | succ k =>
    rcases runSteps_succ_cases k s with hrun | ⟨t, hstep, -⟩
    · exact hrun
    · exact absurd (stepCase_of_step hstep).1 h

theorem runSteps_of_last_step {s t : State} (h : step s = .next t) (hover : t.status ≠ .running) (k : Nat) :
    runSteps (k + 1) s = t := by
  rw [runSteps_of_step h, runSteps_of_over hover]

/-- Every step that leaves the run running shortens what is left of the buffer. -/
theorem runSteps_ends {k : Nat} {s : State} (h : s.bufLen - s.pos < k) : (runSteps k s).status ≠ .running := by
  induction k generalizing s with
  | zero => omega
  | succ k ih =>
    by_cases hs : s.status = .running
    · obtain ⟨t, hstep, hcase⟩ := exists_step hs
      obtain ⟨-, hlen, -⟩ := step_sameSupply hstep
      rcases hcase.progress with hover | ⟨hlt, hle⟩
      · rwa [runSteps_of_last_step hstep hover]
      · rw [runSteps_of_step hstep]
        exact ih (by omega)
    · rwa [runSteps_of_over hs]

end Sys2Proof.Machine

/-! SUPPORT. The decoder splits a byte list behind the instruction it reads (30_encoding.md R60, R65). -/

namespace Sys2Proof

theorem encode_length (i : Instr) : (encode i).length = i.length := by
  cases i with
  | movRmR d w reg rm => exact Laws.Length.movRmR d w reg rm
  | movRmImm x rm imm => exact Laws.Length.movRmImm x rm imm
  | movRImm r imm => exact Laws.Length.movRImm r imm
  | addRmR d w reg rm => exact Laws.Length.addRmR d w reg rm
  | subRmR d w reg rm => exact Laws.Length.subRmR d w reg rm
  | cmpRmR d w reg rm => exact Laws.Length.cmpRmR d w reg rm
  | addRmImm rm imm => exact Laws.Length.addRmImm rm imm
  | subRmImm rm imm => exact Laws.Length.subRmImm rm imm
  | cmpRmImm rm imm => exact Laws.Length.cmpRmImm rm imm
  | addAccImm imm => exact Laws.Length.addAccImm imm
  | subAccImm imm => exact Laws.Length.subAccImm imm
  | cmpAccImm imm => exact Laws.Length.cmpAccImm imm
  | noop cause => exact Laws.Length.noop cause
  | _ => rfl

/-- The decoder splits a byte list behind the instruction's length. -/
theorem decode_eq_got_length {bs c : Cursor} {i : Instr} (hd : decode bs = .got i c) :
    i.length + c.length = bs.length := by
  obtain ⟨-, rfl, -⟩ := encodeOfDecode bs i c hd
  rw [List.length_append, encode_length]

theorem decode_eq_got_drop {bs c : Cursor} {i : Instr} (hd : decode bs = .got i c) : bs.drop i.length = c := by
  obtain ⟨-, rfl, -⟩ := encodeOfDecode bs i c hd
  rw [← encode_length, List.drop_left]

/-- Bytes behind an instruction are left behind what it leaves. -/
theorem decode_append {xs c : Cursor} {i : Instr} (hd : decode xs = .got i c) (ys : Cursor) :
    decode (xs ++ ys) = .got i (c ++ ys) := by
  obtain ⟨c', hd'⟩ := decode_append_of_got hd ys
  have hdrop := decode_eq_got_drop hd'
  have hlen := decode_eq_got_length hd
  rw [List.drop_append_of_le_length (by omega), decode_eq_got_drop hd] at hdrop
  rw [hd', hdrop]

theorem ne_nil_of_decode {bs c : Cursor} {i : Instr} (hd : decode bs = .got i c) : bs ≠ [] := by
  rintro rfl
  cases hd

theorem length_lt_of_decode {bs c : Cursor} {i : Instr} (hd : decode bs = .got i c) : c.length < bs.length := by
  have hlen := decode_eq_got_length hd
  have hpos := i.length_bounds.1
  omega

end Sys2Proof

/-! SUPPORT. The run is a walk over the bytes, one instruction after the other (40_dispatch.md R90, R93, R95). -/

namespace Sys2Proof.Machine

/-! ### What is left of the buffer (20_memory.md R40, R41) -/

/-- All the bytes from the cursor on. -/
def State.remaining (s : State) : List Byte := State.upcoming (s.bufLen - s.pos) s

theorem State.remaining_length (s : State) : s.remaining.length = s.bufLen - s.pos := by
  simp [State.remaining, State.upcoming_length]

theorem State.remaining_getElem? (s : State) (k : Nat) : s.remaining[k]? = s.readByte (s.pos + k) := by
  rw [State.remaining, State.upcoming_getElem?]
  by_cases hk : k < s.bufLen - s.pos
  · rw [if_pos hk]
  · rw [if_neg hk, State.readByte_of_le (by omega)]

/-- The bytes of a step are the first six of them. -/
theorem State.take_remaining (s : State) : s.remaining.take maxInstrBytes = s.window := by
  apply List.ext_getElem?
  intro k
  rw [List.getElem?_take, State.window_getElem?, State.remaining_getElem?]

theorem State.remaining_emitted (s : State) (len : Nat) (v : Instruction) :
    (s.emitted len v).remaining = s.remaining.drop len := by
  apply List.ext_getElem?
  intro k
  rw [List.getElem?_drop, State.remaining_getElem?, State.remaining_getElem?, State.emitted_pos, Nat.add_assoc]
  rfl

theorem State.load_readByte (bytes : List Byte) (p : Policy) (k : Nat) :
    (State.load bytes p).readByte k = bytes[k]? := by
  unfold State.readByte
  split
  · next h =>
    rw [State.load_bufLen] at h
    rw [State.load_buf, Memory.read_store 0 bytes k rfl]
    simp [h]
  · next h => exact (List.getElem?_eq_none (Nat.le_of_not_lt h)).symm

theorem State.load_remaining (bytes : List Byte) (p : Policy) : (State.load bytes p).remaining = bytes := by
  apply List.ext_getElem?
  intro k
  rw [State.remaining_getElem?, State.load_readByte, State.load_pos, Nat.zero_add]

theorem decode_window_of_got {s : State} {i : Instr} {c : Cursor} (hd : decode s.remaining = .got i c) :
    ∃ c', decode s.window = .got i c' :=
  s.take_remaining ▸ decode_take_of_got hd

theorem decode_window_of_stop {s : State} {r : DecodeStop} (hd : decode s.remaining = .stop r) :
    decode s.window = .stop r :=
  s.take_remaining ▸ (sixBytesSuffice s.remaining).2 r hd

/-! ### The walk over a byte list (R90) -/

/-- Induction along a byte list, one instruction after the other, by what stands at its front. -/
theorem instr_induction (p : Policy) {P : List Byte → Prop} (empty : P [])
    (cut : ∀ bs r, bs ≠ [] → decode bs = .stop r → P bs)
    (rejected : ∀ bs i c, decode bs = .got i c → rejects p i = true → P bs)
    (accepted : ∀ bs i c, decode bs = .got i c → rejects p i = false → P c → P bs) (bs : List Byte) : P bs := by
  induction hn : bs.length using Nat.strong_induction_on generalizing bs with
  | _ n ih =>
    by_cases hbs : bs = []
    · exact hbs ▸ empty
    cases hd : decode bs with
    | stop r => exact cut bs r hbs hd
    | got i c =>
      cases hr : rejects p i with
      | true => exact rejected bs i c hd hr
      | false => exact accepted bs i c hd hr (ih c.length (hn ▸ length_lt_of_decode hd) c rfl)

theorem decodeList_nil (p : Policy) (n off : Nat) : decodeList p n off [] = .ok [] := by
  cases n <;> rfl

theorem decodeList_of_stop {bs : List Byte} {r : DecodeStop} (p : Policy) (n off : Nat) (hbs : bs ≠ [])
    (hd : decode bs = .stop r) : decodeList p (n + 1) off bs = .error (.truncatedInstruction off) := by
  cases bs with
  | nil => exact absurd rfl hbs
  | cons b bs => simp [decodeList, hd]

theorem decodeList_of_rejected {bs c : Cursor} {i : Instr} {p : Policy} (n off : Nat)
    (hd : decode bs = .got i c) (hr : rejects p i = true) :
    decodeList p (n + 1) off bs = .error (.unsupportedEncoding off) := by
  cases bs with
  | nil => cases hd
  | cons b bs =>
    rw [rejects] at hr
    simp [decodeList, hd, hr]

theorem decodeList_of_accepted {bs c : Cursor} {i : Instr} {p : Policy} (n off : Nat)
    (hd : decode bs = .got i c) (hr : rejects p i = false) :
    decodeList p (n + 1) off bs = (decodeList p n (off + i.length) c).map (valueOf i :: ·) := by
  cases bs with
  | nil => cases hd
  | cons b bs =>
    rw [rejects] at hr
    simp only [decodeList, hd, hr]
    cases decodeList p n (off + i.length) c <;> rfl

/-- The walk with as many instructions of fuel as there are bytes. -/
def walk (p : Policy) (off : Nat) (bs : List Byte) : Except DecodeError (List Instruction) :=
  decodeList p bs.length off bs

/-- As much fuel as there are bytes is enough: every instruction takes a byte. -/
theorem decodeList_succ {p : Policy} {n off : Nat} {bs : List Byte} (h : bs.length ≤ n) :
    decodeList p (n + 1) off bs = decodeList p n off bs := by
  induction n generalizing off bs with
  | zero => rw [List.length_eq_zero_iff.mp (Nat.le_zero.mp h)]; rfl
  | succ n ih =>
    cases bs with
    | nil => rfl
    | cons b bs =>
      cases hd : decode (b :: bs) with
      | stop r => simp only [decodeList, hd]
      | got i c =>
        have hlt := length_lt_of_decode hd
        simp only [decodeList, hd]
        rw [ih (by omega)]

theorem decodeList_eq_walk {p : Policy} {n off : Nat} {bs : List Byte} (h : bs.length ≤ n) :
    decodeList p n off bs = walk p off bs := by
  induction n, h using Nat.le_induction with
  | base => rfl
  | succ n hle ih => rw [decodeList_succ hle, ih]

@[simp] theorem walk_nil (p : Policy) (off : Nat) : walk p off [] = .ok [] := rfl

theorem walk_of_stop {bs : List Byte} {r : DecodeStop} (p : Policy) (off : Nat) (hbs : bs ≠ [])
    (hd : decode bs = .stop r) : walk p off bs = .error (.truncatedInstruction off) := by
  rw [← decodeList_eq_walk (Nat.le_succ _), decodeList_of_stop p _ off hbs hd]

theorem walk_of_rejected {bs c : Cursor} {i : Instr} {p : Policy} (off : Nat) (hd : decode bs = .got i c)
    (hr : rejects p i = true) : walk p off bs = .error (.unsupportedEncoding off) := by
  rw [← decodeList_eq_walk (Nat.le_succ _), decodeList_of_rejected _ off hd hr]

theorem walk_of_accepted {bs c : Cursor} {i : Instr} {p : Policy} (off : Nat) (hd : decode bs = .got i c)
    (hr : rejects p i = false) : walk p off bs = (walk p (off + i.length) c).map (valueOf i :: ·) := by
  rw [← decodeList_eq_walk (Nat.le_succ _), decodeList_of_accepted _ off hd hr,
    decodeList_eq_walk (length_lt_of_decode hd).le]

/-! ### The run is the walk (R90, R95) -/

/-- From a running state the result is that of the walk over what is left of the buffer, behind the values emitted so
far. -/
theorem runSteps_result {p : Policy} {bs : List Byte} {s : State} {k : Nat} (hs : s.status = .running)
    (hp : s.policy = p) (hle : s.pos ≤ s.bufLen) (hbs : s.remaining = bs) (hk : bs.length ≤ k) :
    (runSteps (k + 1) s).result = some ((walk p s.pos bs).map (s.out ++ ·)) := by
  have hlen : bs.length = s.bufLen - s.pos := hbs ▸ s.remaining_length
  induction bs using instr_induction p generalizing s k with
  | empty =>
    have hend : s.pos = s.bufLen := by rw [List.length_nil] at hlen; omega
    rw [runSteps_of_last_step (step_at_end hs hend) (by simp), walk_nil]
    simp [State.result, Except.map]
  | cut bs r hne hd =>
    have hpos := List.length_pos_iff.mpr hne
    have hstep := step_of_cut hs (by omega) (decode_window_of_stop (hbs ▸ hd))
    rw [runSteps_of_last_step hstep (by simp), walk_of_stop p _ hne hd]
    rfl
  | rejected bs i c hd hr =>
    obtain ⟨c', hd'⟩ := decode_window_of_got (hbs ▸ hd)
    rw [runSteps_of_last_step (step_of_rejected hs hd' (hp ▸ hr)) (by simp), walk_of_rejected _ hd hr]
    rfl
  | accepted bs i c hd hr ih =>
    obtain ⟨c', hd'⟩ := decode_window_of_got (hbs ▸ hd)
    have hfit := length_le_of_decode_window hd'
    have hlt := length_lt_of_decode hd
    obtain ⟨k, rfl⟩ := Nat.exists_eq_add_one.mpr (Nat.zero_lt_of_lt (hlt.trans_le hk))
    have hrest : (s.emitted i.length (valueOf i)).remaining = c := by
      rw [State.remaining_emitted, hbs, decode_eq_got_drop hd]
    rw [runSteps_of_step (step_of_accepted hs hd' (hp ▸ hr)), walk_of_accepted _ hd hr,
      ih (s := s.emitted i.length (valueOf i)) hs hp hfit hrest (by omega)
        (hrest ▸ State.remaining_length _), State.emitted_pos, State.emitted_out]
    cases walk p (s.pos + i.length) c with
    | error e => rfl
    | ok vs => simp [Except.map]

/-- Settles O49: the run on a buffer, from the start. -/
theorem runRefinesOnePassDecode : Obligations.RunRefinesOnePassDecode := by
  intro bytes p
  have hrun := runSteps_result (s := State.load bytes p) rfl rfl (Nat.zero_le _) (State.load_remaining bytes p)
    (Nat.le_refl _)
  rw [decodeBuffer, runBuffer, hrun, State.load_policy, State.load_pos, State.load_out, walk]
  cases decodeList p bytes.length 0 bytes <;> rfl

/-- Settles O48: every step makes progress, so the bytes left bound the steps; the result of a whole decode is that of
the walk. -/
theorem progressAndTermination : Obligations.ProgressAndTermination := by
  refine ⟨fun s hs => ?_, fun s _ => runSteps_ends (Nat.lt_succ_self _), fun bytes p => ?_⟩
  · obtain ⟨t, hstep, hcase⟩ := exists_step hs
    exact ⟨t, hstep, hcase.progress.imp_right And.left⟩
  · exact ⟨_, runRefinesOnePassDecode bytes p⟩

/-! ### One buffer behind another (R93, R95, R97) -/

/-- The same error, `k` bytes further on. -/
def DecodeError.shift (k : Nat) : DecodeError → DecodeError
  | .truncatedInstruction o => .truncatedInstruction (k + o)
  | .unsupportedEncoding o => .unsupportedEncoding (k + o)

/-- Where the walk begins matters to the offset of an error only. -/
theorem walk_shift (p : Policy) (k off : Nat) (bs : List Byte) :
    walk p (k + off) bs = (walk p off bs).mapError (DecodeError.shift k) := by
  induction bs using instr_induction p generalizing off with
  | empty => rfl
  | cut bs r hne hd => rw [walk_of_stop p _ hne hd, walk_of_stop p _ hne hd]; rfl
  | rejected bs i c hd hr => rw [walk_of_rejected _ hd hr, walk_of_rejected _ hd hr]; rfl
  | accepted bs i c hd hr ih =>
    rw [walk_of_accepted _ hd hr, walk_of_accepted _ hd hr, Nat.add_assoc, ih]
    cases walk p (off + i.length) c <;> rfl

/-- Behind a byte list that decodes well the walk goes on. -/
theorem walk_append {p : Policy} {off : Nat} {xs : List Byte} {vs : List Instruction} (h : walk p off xs = .ok vs)
    (ys : List Byte) : walk p off (xs ++ ys) = (walk p (off + xs.length) ys).map (vs ++ ·) := by
  induction xs using instr_induction p generalizing off vs with
  | empty =>
    cases h
    exact (congrFun Except.map_id _).symm
  | cut xs r hne hd => rw [walk_of_stop p _ hne hd] at h; cases h
  | rejected xs i c hd hr => rw [walk_of_rejected _ hd hr] at h; cases h
  | accepted xs i c hd hr ih =>
    rw [walk_of_accepted _ hd hr] at h
    cases hc : walk p (off + i.length) c with
    | error e => rw [hc] at h; cases h
    | ok ws =>
      rw [hc] at h
      cases h
      rw [walk_of_accepted _ (decode_append hd ys) hr, ih hc, Nat.add_assoc, decode_eq_got_length hd]
      cases walk p (off + xs.length) ys <;> rfl

/-- A whole decode behind a buffer that decodes well. -/
theorem decodeBuffer_append {p : Policy} {xs : List Byte} {vs : List Instruction}
    (h : decodeBuffer xs p = some (.ok vs)) (ys : List Byte) :
    decodeBuffer (xs ++ ys) p =
      (decodeBuffer ys p).map fun r => (r.mapError (DecodeError.shift xs.length)).map (vs ++ ·) := by
  rw [runRefinesOnePassDecode] at h
  have happend := walk_append (Option.some.inj h) ys
  rw [Nat.add_comm, walk_shift] at happend
  rw [runRefinesOnePassDecode, runRefinesOnePassDecode]
  exact congrArg some happend

/-- Settles O50: each of the three ends of the second decode. -/
theorem decodeOfConcatenation : Obligations.DecodeOfConcatenation := by
  intro xs ys p vs hxs
  rw [decodeBuffer_append hxs]
  exact ⟨fun ws hys => by rw [hys]; rfl, fun o hys => by rw [hys]; rfl, fun o hys => by rw [hys]; rfl⟩

end Sys2Proof.Machine

/-! SUPPORT. The formatter applied to each value of a sequence (40_dispatch.md R96). -/

namespace Sys2Proof.Machine

/-- The formatter's answer on a sequence is the line of each value alone, in the same order. -/
theorem formatAll_eq_ok {noopText : Text} {is : List Instruction} {lines : List Text} :
    formatAll noopText is = .ok lines ↔ List.Forall₂ (fun i line => formatLine noopText i = .ok line) is lines := by
  induction is generalizing lines with
  | nil => simp [formatAll, eq_comm]
  | cons i is ih =>
    rw [List.forall₂_cons_left_iff, formatAll]
    cases hline : formatLine noopText i with
    | error r => simp [bind, Except.bind]
    | ok line =>
      cases hrest : formatAll noopText is with
      | error r => simp [bind, Except.bind, ← ih, hrest]
      | ok rest =>
        simp only [bind, Except.bind, ← ih, hrest, Except.ok.injEq]
        simp [eq_comm]

/-- A location that meets the invariant has a text (47_formatter.md R225). -/
theorem exists_locText {l : Location} (h : l.invariant = true) : ∃ text, locText l = .ok text := by
  obtain ⟨mem, reg, index, disp⟩ := l
  cases reg with
  | some r => cases mem <;> exact ⟨_, rfl⟩
  | none =>
    obtain ⟨rfl, hdisp⟩ : mem = true ∧ disp.isSome = true := by simpa [Location.invariant] using h
    obtain ⟨a, rfl⟩ := Option.isSome_iff_exists.mp hdisp
    exact ⟨_, rfl⟩

theorem exists_line_of_pair (mn : Text) {src dest : Location} (h : ∀ l ∈ [src, dest], l.invariant = true) :
    ∃ line, twoOperandLine mn (locText dest) (locText src) = .ok line := by
  obtain ⟨x, hx⟩ := exists_locText (h dest (by simp))
  obtain ⟨y, hy⟩ := exists_locText (h src (by simp))
  rw [hx, hy]
  exact ⟨_, rfl⟩

theorem exists_line_of_immediate (mn text : Text) {dest : Location} (h : ∀ l ∈ [dest], l.invariant = true) :
    ∃ line, twoOperandLine mn (locText dest) (.ok text) = .ok line := by
  obtain ⟨x, hx⟩ := exists_locText (h dest (by simp))
  rw [hx]
  exact ⟨_, rfl⟩

/-- A value whose locations meet the invariant has a line. -/
theorem exists_formatLine (noopText : Text) {i : Instruction} (h : ∀ l ∈ i.locations, l.invariant = true) :
    ∃ line, formatLine noopText i = .ok line := by
  cases i with
  | mov | add | sub | cmp => exact exists_line_of_pair _ h
  | movImmediate | addImmediate | subImmediate | cmpImmediate => exact exists_line_of_immediate _ _ h
  | _ => exact ⟨_, rfl⟩

/-- A sequence whose values all have a line has its lines. -/
theorem exists_formatAll {noopText : Text} {is : List Instruction}
    (h : ∀ i ∈ is, ∃ line, formatLine noopText i = .ok line) : ∃ lines, formatAll noopText is = .ok lines := by
  choose! line hline using h
  refine ⟨is.map line, formatAll_eq_ok.mpr ?_⟩
  rw [List.forall₂_map_right_iff, List.forall₂_same]
  exact hline

/-- Settles O56: the lines are those of the values one by one, and every value on the invariant has one. -/
theorem oneLinePerInstruction : Obligations.OneLinePerInstruction := by
  intro noopText is
  refine ⟨fun lines h => ?_, fun h => exists_formatAll fun i hi => exists_formatLine noopText (h i hi)⟩
  have hall := formatAll_eq_ok.mp h
  refine ⟨hall.length_eq.symm, fun k i line hi hline => ?_⟩
  obtain ⟨hk, rfl⟩ := List.getElem?_eq_some_iff.mp hi
  obtain ⟨hk', rfl⟩ := List.getElem?_eq_some_iff.mp hline
  exact hall.get hk hk'

end Sys2Proof.Machine

/-! SUPPORT. The operands that the builders make, and why a run's values have a text (41_operand_decoder.md R110 to R122,
60_exceptions.md R243). -/

namespace Sys2Proof.Machine

/-! ### The register table (R110) -/

/-- The byte half of the register table stands before the word half, each in field order. -/
theorem registerTable_eq_regName (r : BitVec 3) (w : Bool) :
    [Register.al, .cl, .dl, .bl, .ah, .ch, .dh, .bh, .ax, .cx, .dx, .bx, .sp, .bp, .si, .di][
      (if w then 8 else 0) + r.toNat]? = some (regName r w) := by
  revert r w; decide

/-- The two halves of the table share no name: one is the byte set, the other the rest. -/
theorem regName_false_ne_true (r r' : BitVec 3) : regName r false ≠ regName r' true := by
  intro h
  have hbyte := congrArg Register.isByte h
  simp at hbyte

/-- Settles O9: the table is `regName`'s, and an operand equal to one of the other width would share its name. -/
theorem registerOperandTable : Obligations.RegisterOperandTable :=
  ⟨fun r w => ⟨regName r w, rfl, registerTable_eq_regName r w⟩,
    fun r r' h => regName_false_ne_true r r' (Option.some.inj (congrArg Location.register h))⟩

/-! ### The r/m operand (R113 to R118) -/

/-- Settles O10: the table is closed, and each of its rows and texts is computed. -/
theorem effectiveAddressTable : Obligations.EffectiveAddressTable := ⟨rfl, rfl⟩

/-- Sign extension keeps the signed value (00_scope.md R10). -/
theorem s16_sext16 (b : Byte) : s16 (sext16 b) = s8 b := by
  have hb := b.isLt
  by_cases h : b.toNat < 128
  · have hv : (sext16 b).toNat = b.toNat := by
      rw [sext16, if_pos h, BitVec.toNat_ofNat]; omega
    rw [s16, s8, hv, if_pos h, if_pos (by omega)]
  · have hv : (sext16 b).toNat = 0xFF00 + b.toNat := by
      rw [sext16, if_neg h, BitVec.toNat_ofNat]; omega
    rw [s16, s8, hv, if_neg h, if_neg (by omega)]
    omega

/-- Settles O11: the reader has one branch for each case, and `rmOperand` one for what the reader answers. -/
theorem rmOperandCases : Obligations.RmOperandCases := by
  intro w c
  refine ⟨fun rm => ?register, fun lo hi => ?direct, fun rm hrm => ?base, fun rm d => ?disp8, fun rm lo hi => ?disp16,
    fun rm b => ?missing⟩
  case register => exact ⟨.register rm, rfl, rfl⟩
  case direct => exact ⟨.direct (le16 lo hi), le16 lo hi, rfl, le16_toNat lo hi, rfl⟩
  case base => exact ⟨.base rm, readRm_encoded (.base rm) c (by simpa [RmField.wf] using hrm), rfl⟩
  case disp8 => exact ⟨.disp8 rm d, sext16 d, rfl, s16_sext16 d, rfl⟩
  case disp16 => exact ⟨.disp16 rm (le16 lo hi), le16 lo hi, rfl, le16_toNat lo hi, rfl⟩
  case missing => exact ⟨rfl, rfl, rfl, rfl, rfl⟩

/-! ### The shapes (R122; 10_state.md R28) -/

/-- Of the four shapes only the direct address has no register. -/
theorem Location.isDirectShape_of_wellShaped {l : Location} (h : l.wellShaped = true) (hr : l.register = none) :
    l.isDirectShape = true := by
  simpa [Location.wellShaped, Location.isRegisterShape, Location.isBaseShape, Location.isIndexedShape, hr] using h

/-- What a well-shaped operand without a register is. -/
theorem Location.direct_of_wellShaped {l : Location} (h : l.wellShaped = true) (hr : l.register = none) :
    l.isMemAddr = true ∧ l.addrCalc = none ∧ l.displacement.isSome = true := by
  have hdirect := Location.isDirectShape_of_wellShaped h hr
  simpa [Location.isDirectShape, hr, and_assoc] using hdirect

/-- Each of the four shapes meets the source's invariant. -/
theorem Location.invariant_of_wellShaped {l : Location} (h : l.wellShaped = true) : l.invariant = true := by
  cases hr : l.register with
  | some r => simp [Location.invariant, hr]
  | none =>
    obtain ⟨hmem, -, hdisp⟩ := Location.direct_of_wellShaped h hr
    simp [Location.invariant, hmem, hdisp]

/-- Settles O14: each builder's operand is well shaped, and the rest follows from its shape. -/
theorem builtLocationsAreWellShaped : Obligations.BuiltLocationsAreWellShaped := by
  intro l hl
  have hshape : l.wellShaped = true := by
    rcases hl with ⟨r, w, rfl⟩ | ⟨rm, w, rfl⟩ | ⟨a, rfl⟩
    · exact regOperand_wellShaped r w
    · exact rmOperand_wellShaped rm w
    · exact directOperand_wellShaped a
  exact ⟨hshape, Location.invariant_of_wellShaped hshape, Location.direct_of_wellShaped hshape⟩

/-! ### The values of a run have a text (R122, R243) -/

theorem wellShaped_of_pairSound {src dest : Location} (h : pairSound src dest = true) :
    ∀ l ∈ [src, dest], l.wellShaped = true := by
  simp only [pairSound, Bool.and_eq_true] at h
  obtain ⟨⟨⟨hsrc, hdest⟩, -⟩, -⟩ := h
  simp [hsrc, hdest]

theorem wellShaped_of_immSound {data : Immediate} {dest : Location} (h : immSound data dest = true) :
    ∀ l ∈ [dest], l.wellShaped = true := by
  obtain ⟨hdest, -⟩ := (Bool.and_eq_true _ _).mp h
  simp [hdest]

/-- The locations of a sound value are well shaped. -/
theorem Instruction.wellShaped_of_sound {i : Instruction} (h : i.sound = true) :
    ∀ l ∈ i.locations, l.wellShaped = true := by
  cases i with
  | mov | add | sub | cmp => exact wellShaped_of_pairSound h
  | movImmediate | addImmediate | subImmediate | cmpImmediate => exact wellShaped_of_immSound h
  | _ => exact fun _ hl => absurd hl List.not_mem_nil

/-- Settles O57: an emitted value is sound, so its locations have the shapes that the formatter is total on. -/
theorem emittedValuesHaveText : Obligations.EmittedValuesHaveText := by
  intro noopText s hinv
  obtain ⟨-, -, -, -, -, -, hout⟩ := hinv
  have hline : ∀ i ∈ s.out, ∃ line, formatLine noopText i = .ok line := fun i hi =>
    exists_formatLine noopText fun l hl =>
      Location.invariant_of_wellShaped (Instruction.wellShaped_of_sound (hout i hi) l hl)
  obtain ⟨lines, hlines⟩ := exists_formatAll hline
  exact ⟨lines, hlines, (formatAll_eq_ok.mp hlines).length_eq.symm⟩

end Sys2Proof.Machine

/-! SUPPORT. The immediates, by `w` and `s` (42_immediate_decoder.md R130 to R132). -/

namespace Sys2Proof.Machine

/-! ### By width and sign (R130, R132) -/

/-- With `w = 0` the bit `s` reaches the field and not its value (R132). -/
theorem groupImmValue_byte (s : Bool) (b : Byte) : groupImmValue (.byte s b) = .byte b := rfl

/-- Settles O12: the reader has one branch for each width and sign, sign extension keeps the signed value, and a cursor
too short for its branch is one of the last two cases. -/
theorem immediateByWidthAndSign : Obligations.ImmediateByWidthAndSign := by
  intro c
  refine ⟨fun s b => ?byte, fun b => ?signed, fun lo hi => ?word, fun s w => ?noByte, fun b => ?oneByte⟩
  case byte => exact ⟨.byte s b, b, rfl, groupImmValue_byte s b, rfl⟩
  case signed => exact ⟨.signed b, sext16 b, rfl, rfl, s16_sext16 b⟩
  case word => exact ⟨.word (le16 lo hi), le16 lo hi, rfl, rfl, le16_toNat lo hi⟩
  case noByte => cases w <;> cases s <;> rfl
  case oneByte => rfl

/-! ### Without a sign bit (R131) -/

/-- The field of format G1 with `s = 0` that stands for an immediate of a format without `s`. -/
def groupOfImm : ImmField → GroupImm
  | .byte b => .byte false b
  | .word v => .word v

theorem groupImmValue_groupOfImm (imm : ImmField) : groupImmValue (groupOfImm imm) = immValue imm := by
  cases imm <;> rfl

theorem groupOfImm_bytes (imm : ImmField) : (groupOfImm imm).bytes = imm.bytes := by
  cases imm <;> rfl

/-- `Imm(w)` is `Imm(w, 0)` (R131): the two readers are one, up to the name of what they answer. -/
theorem readGroupImm_false (w : Bool) (c : Cursor) :
    readGroupImm false w c = (readImm w c).andThen fun imm c => .got (groupOfImm imm) c := by
  cases w with
  | false => cases hb : next c <;> simp [readGroupImm, readImm, hb, groupOfImm]
  | true => cases hv : nextWord c <;> simp [readGroupImm, readImm, hv, groupOfImm]

/-- Settles O13: the G1 reader with `s = 0` answers `groupOfImm` of what the other answers, and stops where it does. -/
theorem immediateWithoutSignBit : Obligations.ImmediateWithoutSignBit := by
  refine fun w c => ⟨fun imm c' hgot => ?_, fun q hstop => ?_⟩
  · obtain ⟨hw, -⟩ := readImm_eq_got hgot
    have hread : readGroupImm false w c = .got (groupOfImm imm) c' := by rw [readGroupImm_false, hgot, Read.got_andThen]
    exact ⟨groupOfImm imm, hread, (groupImmValue_groupOfImm imm).symm, hw, (groupOfImm_bytes imm).symm⟩
  · rw [readGroupImm_false, hstop, Read.stop_andThen]

end Sys2Proof.Machine

/-! SUPPORT. Completion of every instruction, and the encoding, value, length and error of the mov family
(43_mov.md R140 to R144) and of the register/memory forms that share its format (44_arith.md R150 to R152). -/

namespace Sys2Proof.Machine

/-! ### The ends of an instruction -/

/-- Settles O25: an instruction whose bytes are there emits its value unless the policy rejects it, and only the strict
policy rejects, and only a Noop. -/
theorem everyInstructionCompletes : Obligations.EveryInstructionCompletes := by
  intro i s hreach hlenient
  have haccepted : rejects s.policy i = false := by
    refine rejects_eq_false.mpr fun hstrict => Bool.eq_false_iff.mpr fun hn => ?_
    exact absurd ((hlenient hn).symm.trans hstrict) (by decide)
  have hexec := exec_of_reach_le hreach
  rw [haccepted] at hexec
  exact ⟨_, hexec, s.emitted_emitted _ _⟩

/-- A supported instruction emits its value or raises `TruncatedInstruction` (60_exceptions.md R241); `len` and `v` are
its length and value as a statement writes them. -/
theorem emitsOrTruncates_of_not_noop {i : Instr} (hn : isNoop i = false) (s : State) {len : Nat} {v : Instruction}
    (hlen : i.length = len) (hv : valueOf i = v) : EmitsOrTruncates i s len v := by
  subst hlen hv
  unfold EmitsOrTruncates
  rw [exec_eq_perform s hn]
  constructor
  · exact fun hle => ⟨_, perform_of_le hle, s.emitted_emitted _ _⟩
  · exact fun hlt => ⟨_, perform_of_lt hlt, s.truncate_raised⟩

/-! ### The formats of the mov family -/

/-- Format RM is `2 + D` bytes long, `D` being the number of displacement bytes in the stream (R63, R65). -/
theorem lenRM_eq_dispBytes (rm : RmField) : lenRM rm = 2 + rm.dispBytes.length := by
  rw [lenRM, rm.dispBytes_length]

/-- Settles O15: the four rows of format RM decode alike, and `directed` sets the roles by `d` (R119). -/
theorem registerMemoryFormsEmit : Obligations.RegisterMemoryFormsEmit := by
  intro s d w reg rm
  have hlen := lenRM_eq_dispBytes rm
  refine ⟨fun hwf => ⟨?decodeMov, ?decodeAdd, ?decodeSub, ?decodeCmp⟩, ?mov, ?add, ?sub, ?cmp⟩
  case decodeMov => exact RmRow.mov.decodesTo d w reg hwf
  case decodeAdd => exact RmRow.add.decodesTo d w reg hwf
  case decodeSub => exact RmRow.sub.decodesTo d w reg hwf
  case decodeCmp => exact RmRow.cmp.decodesTo d w reg hwf
  case mov => exact emitsOrTruncates_of_not_noop rfl s hlen rfl
  case add => exact emitsOrTruncates_of_not_noop rfl s hlen rfl
  case sub => exact emitsOrTruncates_of_not_noop rfl s hlen rfl
  case cmp => exact emitsOrTruncates_of_not_noop rfl s hlen rfl

/-- Settles O18: neither the length nor the value of the form with a mode byte reads the unexamined field `x`, and one
more immediate byte stands in the stream when `w` is set (R64). -/
theorem movImmediateFormsEmit : Obligations.MovImmediateFormsEmit := by
  intro s x r rm imm
  have hw : imm.w.toNat = if imm.w then 1 else 0 := by cases imm <;> rfl
  have hlenMI : lenMI rm imm = 2 + rm.dispBytes.length + 1 + if imm.w then 1 else 0 := by
    rw [lenMI_eq, rm.dispBytes_length, hw]
  have hlenRI : lenImm imm = 2 + if imm.w then 1 else 0 := by rw [lenImm_eq, hw]
  refine ⟨fun hwf => ?decodeMode, ?decodeRegister, ?emitMode, ?emitRegister⟩
  case decodeMode => exact decodesTo_encode_movRmImm x hwf imm
  case decodeRegister => exact decodesTo_encode_movRImm r imm
  case emitMode => exact emitsOrTruncates_of_not_noop rfl s hlenMI rfl
  case emitRegister => exact emitsOrTruncates_of_not_noop rfl s hlenRI rfl

/-- The accumulator is AL or AX by `w` (R111). -/
theorem accumulator_eq (w : Bool) : accumulator w = ⟨false, some (if w then .ax else .al), none, none⟩ := by
  cases w <;> rfl

/-- Settles O19: both rows of format AM are three bytes long for either `w`, and their operands are the accumulator and
the direct address in opposite roles. -/
theorem accumulatorMemoryFormsEmit : Obligations.AccumulatorMemoryFormsEmit := by
  intro s w a
  rw [← accumulator_eq w]
  refine ⟨?decodeLoad, ?decodeStore, ?load, ?store⟩
  case decodeLoad => exact AmRow.load.decodesTo w a
  case decodeStore => exact AmRow.store.decodesTo w a
  case load => exact emitsOrTruncates_of_not_noop rfl s rfl rfl
  case store => exact emitsOrTruncates_of_not_noop rfl s rfl rfl

end Sys2Proof.Machine

/-! SUPPORT. The encoding, value, length and error of the immediate forms of add, sub and cmp (44_arith.md R153 to
R158). -/

namespace Sys2Proof.Machine

/-! ### Immediate to register/memory (R153 to R155) -/

/-- Format G1 is `2 + D + I` bytes long, `D` and `I` being the displacement and immediate bytes in the stream (R63 to
R65). -/
theorem lenG1_eq_bytes (rm : RmField) (imm : GroupImm) :
    lenG1 rm imm = 2 + rm.dispBytes.length + imm.bytes.length := by
  rw [lenG1, rm.dispBytes_length, imm.bytes_length]

/-- `I` of R64 by the bits `s` and `w` of the leading byte. -/
theorem groupImm_bytes_length_eq_ite (imm : GroupImm) :
    imm.bytes.length = if imm.s = false ∧ imm.w = true then 2 else 1 := by
  rw [imm.bytes_length, imm.len_eq]
  simp [and_comm]

/-- Settles O16: the three supported sub-fields decode alike, and each row has one length and one pair of operands. -/
theorem groupFormsEmit : Obligations.GroupFormsEmit := by
  intro s rm imm
  have hlen := lenG1_eq_bytes rm imm
  refine ⟨fun hwf => ⟨?decodeAdd, ?decodeSub, ?decodeCmp⟩, groupImm_bytes_length_eq_ite imm, ?add, ?sub, ?cmp⟩
  case decodeAdd => exact decodesTo_encodeGroup rfl hwf imm
  case decodeSub => exact decodesTo_encodeGroup rfl hwf imm
  case decodeCmp => exact decodesTo_encodeGroup rfl hwf imm
  case add => exact emitsOrTruncates_of_not_noop rfl s hlen rfl
  case sub => exact emitsOrTruncates_of_not_noop rfl s hlen rfl
  case cmp => exact emitsOrTruncates_of_not_noop rfl s hlen rfl

/-! ### Immediate to accumulator (R156 to R158) -/

/-- Format AI is `2 + w` bytes long (R65). -/
theorem lenImm_eq_ite (imm : ImmField) : lenImm imm = 2 + if imm.w then 1 else 0 := by
  rw [lenImm_eq, Bool.toNat, Bool.cond_eq_ite]

/-- Settles O17: the three rows of format AI decode alike, and the destination is the accumulator by `w` (R111). -/
theorem accumulatorImmediateFormsEmit : Obligations.AccumulatorImmediateFormsEmit := by
  intro s imm
  have hlen := lenImm_eq_ite imm
  rw [← accumulator_eq imm.w]
  refine ⟨?decodeAdd, ?decodeSub, ?decodeCmp, ?add, ?sub, ?cmp⟩
  case decodeAdd => exact AiRow.add.decodesTo imm
  case decodeSub => exact AiRow.sub.decodesTo imm
  case decodeCmp => exact AiRow.cmp.decodesTo imm
  case add => exact emitsOrTruncates_of_not_noop rfl s hlen rfl
  case sub => exact emitsOrTruncates_of_not_noop rfl s hlen rfl
  case cmp => exact emitsOrTruncates_of_not_noop rfl s hlen rfl

end Sys2Proof.Machine

/-! SUPPORT. The encoding, value, length, error and text of the jumps and loops (45_jumps.md R170 to R190). -/

namespace Sys2Proof.Machine

/-! ### One row of format J (R170) -/

/-- No row of format J is a Noop. -/
theorem not_noop_of_jumpRow {b0 : Byte} : ∀ mk, jumpRow b0 = some mk → ∀ inc, isNoop (mk inc) = false := by
  unfold jumpRow
  iterate 20 refine forall_row_cons (fun _ _ => rfl) ?_
  exact fun _ h => nomatch h

/-- Every row of format J is two bytes long (R65). -/
theorem length_of_jumpRow {b0 : Byte} {mk : Byte → Instr} (row : jumpRow b0 = some mk) (inc : Byte) :
    (mk inc).length = 2 := by
  rw [← Instr.reach_of_not_noop (not_noop_of_jumpRow mk row inc), jumpRow_reach mk row inc, lenJ]

/-- A row of format J is read from its leading byte and the increment, whatever follows. -/
theorem decodesTo_of_jumpRow {b0 : Byte} {mk : Byte → Instr} (row : jumpRow b0 = some mk) (inc : Byte) :
    DecodesTo [b0, inc] (mk inc) :=
  fun c => decode_of_jumpRow mk row (inc :: c)

/-- A jump's line is the mnemonic, a space and the signed decimal of the increment (R219). -/
theorem jumpLine_eq (mn : Text) (inc : Byte) : jumpLine mn inc = .ok (mn ++ ' ' :: decText (s8 inc)) := by
  simp [jumpLine]

/-- A rule of 45_jumps.md is a row of format J with the value the row emits and the mnemonic of that value; the length,
the error and the shape of the line are those of the format. -/
theorem jumpRule_of_row {b0 : Byte} {mk : Byte → Instr} {op : Byte → Instruction} {name : String}
    (row : jumpRow b0 = some mk) (hvalue : ∀ inc, valueOf (mk inc) = op inc)
    (hline : ∀ noopText inc, formatLine noopText (op inc) = jumpLine name.toList inc) : JumpRule b0 mk op name := by
  intro inc s
  refine ⟨decodesTo_of_jumpRow row inc, ?emit, fun noopText => (hline noopText inc).trans (jumpLine_eq _ inc)⟩
  case emit =>
    exact emitsOrTruncates_of_not_noop (not_noop_of_jumpRow mk row inc) s (length_of_jumpRow row inc) (hvalue inc)

/-! ### The three groups of rules (R171 to R190) -/

/-- Settles O20: each of the eight is its row of format J, and its row, value and mnemonic are read off the tables. -/
theorem jumpsFrom70Emit : Obligations.JumpsFrom70Emit := by
  unfold Obligations.JumpsFrom70Emit
  and_intros <;> exact jumpRule_of_row rfl (fun _ => rfl) fun _ _ => rfl

/-- Settles O21, as for 0x70 to 0x77. -/
theorem jumpsFrom78Emit : Obligations.JumpsFrom78Emit := by
  unfold Obligations.JumpsFrom78Emit
  and_intros <;> exact jumpRule_of_row rfl (fun _ => rfl) fun _ _ => rfl

/-- Settles O22: the loops and jcxz are rows of format J like the jumps. -/
theorem loopsEmit : Obligations.LoopsEmit := by
  unfold Obligations.LoopsEmit
  and_intros <;> exact jumpRule_of_row rfl (fun _ => rfl) fun _ _ => rfl

end Sys2Proof.Machine

/-! SUPPORT. The encoding, value, length and errors of the unsupported encodings (46_noop.md R200 to R203). -/

namespace Sys2Proof.Machine

/-! ### The ends of a Noop (R202) -/

/-- The strict end of an unsupported encoding is the error at its leading byte. -/
theorem State.reject_raised (s : State) : Raised s s.reject (.unsupportedEncoding s.pos) := rfl

/-- Whatever the cause, once the bytes that a Noop looks at are there the policy alone decides how it ends. -/
theorem unsupportedByPolicy_of_reach_le {cause : NoopCause} {s : State}
    (hreach : s.pos + (Instr.noop cause).reach ≤ s.bufLen) : UnsupportedByPolicy (.noop cause) s := by
  refine ⟨fun hlenient => ?lenient, fun hstrict => ?strict⟩
  case lenient => exact everyInstructionCompletes (.noop cause) s hreach fun _ => hlenient
  case strict =>
    have hexec := exec_of_reach_le hreach
    rw [rejects_eq_true.mpr ⟨rfl, hstrict⟩, if_pos rfl] at hexec
    exact ⟨_, hexec, s.reject_raised⟩

/-- Where a byte that a Noop looks at is missing, it raises `TruncatedInstruction` before the policy is read. -/
theorem exec_noop_of_lt {cause : NoopCause} {s : State} (h : s.bufLen < s.pos + (Instr.noop cause).reach) :
    exec (.noop cause) s = .next s.truncate := by
  rw [exec_noop, if_neg (Nat.not_le.mpr h)]

/-! ### The two causes (R200, R201) -/

/-- An unsupported leading byte is all that its Noop looks at. -/
theorem reach_noop_leading (b0 : Byte) : (Instr.noop (.leading b0)).reach = 1 := rfl

/-- An unsupported sub-field is looked at in the byte behind the leading one. -/
theorem reach_noop_group (s w : Bool) (b1 : Byte) : (Instr.noop (.group s w b1)).reach = 2 := rfl

/-- Format G1 cannot do without its mode byte. -/
theorem decode_lead2_group_alone (s w : Bool) : decode [lead2 0b100000#6 s w] = .stop .truncated :=
  (Dispatch.formatG1 s w).decode_cons []

/-- Settles O23: the byte falls to the last arm of the dispatcher, and it is all that its Noop looks at. -/
theorem unsupportedLeadingByte : Obligations.UnsupportedLeadingByte := by
  intro s b0 hlead
  refine ⟨fun c => decode_cons_of_not_recognised hlead c, fun hroom => ?_⟩
  exact unsupportedByPolicy_of_reach_le (by rw [reach_noop_leading]; omega)

/-- Settles O24: the Noop looks at one byte more than it consumes, so the policy decides with the mode byte there and
the missing byte without it. -/
theorem unsupportedGroupSubfield : Obligations.UnsupportedGroupSubfield := by
  intro s sf wf b1 hsub
  have hreach := reach_noop_group sf wf b1
  refine ⟨fun c => ?decoded, decode_lead2_group_alone sf wf, fun hroom => ?policy, fun hcut => ?truncated⟩
  case decoded => exact decode_encode_noop (cause := .group sf wf b1) (by simp [NoopCause.wf, hsub]) c
  case policy => exact unsupportedByPolicy_of_reach_le (by omega)
  case truncated => exact ⟨_, exec_noop_of_lt (by omega), s.truncate_raised⟩

end Sys2Proof.Machine

/-! SUPPORT. The texts of the formatter, part by part (47_formatter.md R210 to R225): decimal numbers, operands,
immediates, and the four shapes of a line. -/

namespace Sys2Proof.Machine

/-! ### Decimal text (R222) -/

/-- Only `0` is written with a leading zero: the leading digit of a longer number is that of its tenth. -/
theorem toDigits_head?_ne_zero {n : Nat} (hpos : 0 < n) : (Nat.toDigits 10 n).head? ≠ some '0' := by
  induction n using Nat.strongRecOn with
  | ind n ih =>
    by_cases hsmall : n < 10
    · rw [Nat.toDigits_of_lt_base hsmall]
      simp only [List.head?_cons, ne_eq, Option.some.injEq, Nat.digitChar_eq_zero]
      omega
    · have htenth := ih (n / 10) (by omega) (by omega)
      rwa [Nat.toDigits_of_base_le (by decide) (by omega), List.head?_append_of_ne_nil _ Nat.toDigits_ne_nil]

theorem digit_of_mem_toDigits {n : Nat} {c : Char} (h : c ∈ Nat.toDigits 10 n) : '0' ≤ c ∧ c ≤ '9' := by
  simpa [Char.isDigit, Char.le_def] using Nat.isDigit_of_mem_toDigits (by decide) (by decide) h

theorem isDecimal_toDigits (n : Nat) : IsDecimal (Nat.toDigits 10 n) n := by
  refine ⟨Nat.toDigits_ne_nil, fun _ => digit_of_mem_toDigits, fun hzero => ?leading, ?value⟩
  case leading =>
    obtain rfl : n = 0 := Nat.eq_zero_of_not_pos fun hpos => toDigits_head?_ne_zero hpos hzero
    exact Nat.toDigits_zero 10
  case value => rw [← Nat.ofDigitChars_eq_foldl, Nat.ofDigitChars_ten_toDigits]

theorem decText_of_nonneg {v : Int} (h : 0 ≤ v) : decText v = Nat.toDigits 10 v.natAbs := if_neg (by omega)

theorem decText_of_neg {v : Int} (h : v < 0) : decText v = '-' :: Nat.toDigits 10 v.natAbs := if_pos h

/-- Settles O52: both signs write the digits of the absolute value, and those are its decimal. -/
theorem decimalText : Obligations.DecimalText := fun _ =>
  ⟨fun h => decText_of_nonneg h ▸ isDecimal_toDigits _, fun h => ⟨_, decText_of_neg h, isDecimal_toDigits _⟩⟩

/-! ### The text of an operand (R211 to R215, R225) -/

theorem dispTerm_of_zero {d : Word} (h : s16 d = 0) : dispTerm (some d) = [] := if_pos h

theorem dispTerm_of_pos {d : Word} (h : 0 < s16 d) : dispTerm (some d) = " + ".toList ++ decText (s16 d) := by
  rw [dispTerm, if_neg (by omega), if_pos h]

theorem dispTerm_of_neg {d : Word} (h : s16 d < 0) : dispTerm (some d) = " - ".toList ++ decText (-(s16 d)) := by
  rw [dispTerm, if_neg (by omega), if_neg (by omega)]

theorem locText_register (r : Register) (a : Option Register) (d : Option Word) :
    locText ⟨false, some r, a, d⟩ = .ok (regText r) := rfl

theorem locText_based (b : Register) (i : Option Register) (d : Option Word) :
    locText ⟨true, some b, i, d⟩ = .ok ('[' :: (regText b ++ indexText i ++ dispTerm d ++ [']'])) := rfl

theorem locText_direct (a : Option Register) (v : Word) :
    locText ⟨true, none, a, some v⟩ = .ok ('[' :: (decText (v.toNat : Int) ++ [']'])) := rfl

/-- The kinds of operand: with a register, in memory with a base, a direct address, and what has no text (R225). -/
theorem locText_cases (l : Location) :
    (∃ r a d, l = ⟨false, some r, a, d⟩) ∨ (∃ b i d, l = ⟨true, some b, i, d⟩) ∨
    (∃ a v, l = ⟨true, none, a, some v⟩) ∨ (l.invariant = false ∧ locText l = .error .invalidDirectAddressing) := by
  obtain ⟨mem, reg, index, disp⟩ := l
  cases reg with
  | some r =>
    cases mem with
    | false => exact .inl ⟨_, _, _, rfl⟩
    | true => exact .inr (.inl ⟨_, _, _, rfl⟩)
  | none =>
    cases mem with
    | false => exact .inr (.inr (.inr ⟨rfl, rfl⟩))
    | true =>
      cases disp with
      | none => exact .inr (.inr (.inr ⟨rfl, rfl⟩))
      | some v => exact .inr (.inr (.inl ⟨_, _, rfl⟩))

theorem locText_of_not_invariant {l : Location} (h : l.invariant = false) :
    locText l = .error .invalidDirectAddressing := by
  obtain ⟨r, a, d, rfl⟩ | ⟨b, i, d, rfl⟩ | ⟨a, v, rfl⟩ | ⟨-, hrefused⟩ := locText_cases l
  · exact nomatch h
  · exact nomatch h
  · exact nomatch h
  · exact hrefused

/-- Settles O51: the text of each kind of operand, the index and the displacement term being those of the model. -/
theorem operandText : Obligations.OperandText := by
  refine ⟨rfl, locText_register, fun b i d => ⟨indexText i, dispTerm d, locText_based b i d, ?_⟩, locText_direct⟩
  refine ⟨?noIndex, ?index, ?absent, ?zero, ?positive, ?negative⟩
  case noIndex => rintro rfl; rfl
  case index => rintro r rfl; rfl
  case absent => rintro rfl; rfl
  case zero => rintro v rfl; exact dispTerm_of_zero
  case positive => rintro v rfl; exact dispTerm_of_pos
  case negative => rintro v rfl; exact dispTerm_of_neg

/-! ### The lines (R210, R216 to R221) -/

theorem immText_of_memory {data : Immediate} {dest : Location} (h : dest.isMemAddr = true) :
    immText data dest = data.prefixText ++ decText data.value := by
  rw [immText, if_pos h]

theorem immText_of_register {data : Immediate} {dest : Location} (h : dest.isMemAddr = false) :
    immText data dest = decText data.value := by
  rw [immText, h]; rfl

theorem twoOperandLine_ok (mn d x : Text) :
    twoOperandLine mn (.ok d) (.ok x) = .ok (mn ++ " ".toList ++ d ++ ", ".toList ++ x) := rfl

theorem twoOperandLine_error (mn : Text) (r : Refusal) (second : Formatted) :
    twoOperandLine mn (.error r) second = .error r := rfl

theorem twoOperandLine_ok_error (mn d : Text) (r : Refusal) : twoOperandLine mn (.ok d) (.error r) = .error r := rfl

/-- A line with two operands is made of the texts of both. -/
theorem twoOperandLine_eq_ok {mn line : Text} {dest second : Formatted} (h : twoOperandLine mn dest second = .ok line) :
    ∃ d x, dest = .ok d ∧ second = .ok x ∧ line = mn ++ " ".toList ++ d ++ ", ".toList ++ x := by
  cases dest with
  | error r => exact nomatch (twoOperandLine_error mn r second).symm.trans h
  | ok d =>
    cases second with
    | error r => exact nomatch (twoOperandLine_ok_error mn d r).symm.trans h
    | ok x => exact ⟨d, x, rfl, rfl, Except.ok.inj (h.symm.trans (twoOperandLine_ok mn d x))⟩

/-- The four shapes of a line, by the operands of the value (R217 to R219, R221). -/
theorem formatLine_cases (noopText : Text) (i : Instruction) :
    (∃ src dest, i.locations = [src, dest] ∧
      formatLine noopText i = twoOperandLine (mnemonic i) (locText dest) (locText src)) ∨
    (∃ data dest, i.locations = [dest] ∧
      formatLine noopText i = twoOperandLine (mnemonic i) (locText dest) (.ok (immText data dest))) ∨
    (∃ inc, i.locations = [] ∧ formatLine noopText i = jumpLine (mnemonic i) inc) ∨
    (i.locations = [] ∧ formatLine noopText i = .ok noopText) := by
  cases i with
  | mov | add | sub | cmp => exact .inl ⟨_, _, rfl, rfl⟩
  | movImmediate | addImmediate | subImmediate | cmpImmediate => exact .inr (.inl ⟨_, _, rfl, rfl⟩)
  | noop => exact .inr (.inr (.inr ⟨rfl, rfl⟩))
  | _ => exact .inr (.inr (.inl ⟨_, rfl, rfl⟩))

/-- Settles O53: the four values of each kind share one shape of line, and the destination and the tag decide what
stands before the number. -/
theorem instructionLines : Obligations.InstructionLines := by
  intro noopText src dest data x y hx hy
  refine ⟨?pair, ?immediate, rfl, rfl⟩
  case pair =>
    have hline : ∀ mn : Text, twoOperandLine mn (locText dest) (locText src) =
        .ok (mn ++ " ".toList ++ x ++ ", ".toList ++ y) := fun mn => by rw [hx, hy, twoOperandLine_ok]
    simp only [List.forall_mem_cons]
    exact ⟨hline _, hline _, hline _, hline _, List.forall_mem_nil _⟩
  case immediate =>
    have hline : ∀ mn z : Text, immText data dest = z → twoOperandLine mn (locText dest) (.ok (immText data dest)) =
        .ok (mn ++ " ".toList ++ x ++ ", ".toList ++ z) := by
      rintro mn _ rfl
      rw [hx, twoOperandLine_ok]
    simp only [List.forall_mem_cons]
    cases hmem : dest.isMemAddr with
    | true =>
      have himm := immText_of_memory (data := data) hmem
      cases data <;> exact ⟨hline _ _ himm, hline _ _ himm, hline _ _ himm, hline _ _ himm, List.forall_mem_nil _⟩
    | false =>
      have himm := immText_of_register (data := data) hmem
      cases data <;> exact ⟨hline _ _ himm, hline _ _ himm, hline _ _ himm, hline _ _ himm, List.forall_mem_nil _⟩

/-! ### Refusals (R225, R243) -/

/-- Whichever of two operands is off the invariant, the line is refused. -/
theorem pairLine_refused (mn : Text) {src dest : Location} (h : ∃ l ∈ [src, dest], l.invariant = false) :
    twoOperandLine mn (locText dest) (locText src) = .error .invalidDirectAddressing := by
  cases hdest : dest.invariant with
  | false => rw [locText_of_not_invariant hdest, twoOperandLine_error]
  | true =>
    obtain ⟨d, hd⟩ := exists_locText hdest
    have hsrc : src.invariant = false := by simpa [hdest] using h
    rw [hd, locText_of_not_invariant hsrc, twoOperandLine_ok_error]

/-- Settles O54: on the invariant every value has a line, and off it a line with operands is refused. -/
theorem formatterTotalOnTheInvariant : Obligations.FormatterTotalOnTheInvariant := by
  refine fun noopText i => ⟨exists_formatLine noopText, fun hbad => ?_⟩
  obtain ⟨src, dest, hlocs, hline⟩ | ⟨data, dest, hlocs, hline⟩ | ⟨inc, hlocs, -⟩ | ⟨hlocs, -⟩ :=
    formatLine_cases noopText i
  · rw [hline, pairLine_refused _ (hlocs ▸ hbad)]
  · have hdest : dest.invariant = false := by simpa [hlocs] using hbad
    rw [hline, locText_of_not_invariant hdest, twoOperandLine_error]
  · simp [hlocs] at hbad
  · simp [hlocs] at hbad

/-! ### The characters of a line (R223) -/

/-- What R223 says of a line. The parts that stand at the end of a line have it too. -/
def PlainLine (line : Text) : Prop :=
  line ≠ [] ∧ line.all plainChar = true ∧ line.getLast? ≠ some ' '

/-- Plain characters may be put before a plain line: its end stays. -/
theorem PlainLine.append {a b : Text} (ha : a.all plainChar = true) (hb : PlainLine b) : PlainLine (a ++ b) := by
  obtain ⟨hne, hplain, hlast⟩ := hb
  refine ⟨List.append_ne_nil_of_right_ne_nil a hne, ?_, ?_⟩
  · rw [List.all_append, ha, hplain, Bool.and_self]
  · rwa [List.getLast?_append_of_ne_nil a hne]

theorem plainLine_toDigits (n : Nat) : PlainLine (Nat.toDigits 10 n) := by
  refine ⟨Nat.toDigits_ne_nil, List.all_eq_true.mpr fun c hc => ?plain, fun hlast => ?last⟩
  case plain => simp [plainChar, digit_of_mem_toDigits hc]
  case last => exact absurd (digit_of_mem_toDigits (List.mem_of_getLast? hlast)) (by decide)

theorem plainLine_decText (v : Int) : PlainLine (decText v) := by
  have hdigits := plainLine_toDigits v.natAbs
  obtain hneg | hnonneg := lt_or_ge v 0
  · rw [decText_of_neg hneg]
    exact hdigits.append (a := ['-']) (by decide)
  · rwa [decText_of_nonneg hnonneg]

theorem plainLine_regText (r : Register) : PlainLine (regText r) := by
  cases r <;> exact ⟨by decide, by decide, by decide⟩

theorem all_plainChar_indexText (i : Option Register) : (indexText i).all plainChar = true := by
  cases i with
  | none => rfl
  | some r =>
    obtain ⟨-, hplain, -⟩ := (plainLine_regText r).append (a := " + ".toList) (by decide)
    exact hplain

theorem all_plainChar_dispTerm (d : Option Word) : (dispTerm d).all plainChar = true := by
  cases d with
  | none => rfl
  | some v =>
    obtain hneg | hzero | hpos := lt_trichotomy (s16 v) 0
    · obtain ⟨-, hplain, -⟩ := (plainLine_decText (-(s16 v))).append (a := " - ".toList) (by decide)
      rwa [dispTerm_of_neg hneg]
    · rw [dispTerm_of_zero hzero]; rfl
    · obtain ⟨-, hplain, -⟩ := (plainLine_decText (s16 v)).append (a := " + ".toList) (by decide)
      rwa [dispTerm_of_pos hpos]

/-- A memory operand is plain: it ends in its closing bracket. -/
theorem plainLine_brackets {inner : Text} (h : inner.all plainChar = true) : PlainLine ('[' :: (inner ++ [']'])) := by
  have hbracket : PlainLine [']'] := ⟨by decide, by decide, by decide⟩
  exact hbracket.append (a := '[' :: inner) (by simp [h, plainChar])

/-- The text of an operand is plain: a register name, or what stands in brackets. -/
theorem plainLine_of_locText {l : Location} {x : Text} (h : locText l = .ok x) : PlainLine x := by
  obtain ⟨r, a, d, rfl⟩ | ⟨b, i, d, rfl⟩ | ⟨a, v, rfl⟩ | ⟨-, hrefused⟩ := locText_cases l
  · obtain rfl := Except.ok.inj ((locText_register r a d).symm.trans h)
    exact plainLine_regText r
  · obtain rfl := Except.ok.inj ((locText_based b i d).symm.trans h)
    obtain ⟨-, hbase, -⟩ := plainLine_regText b
    exact plainLine_brackets (by simp [hbase, all_plainChar_indexText, all_plainChar_dispTerm])
  · obtain rfl := Except.ok.inj ((locText_direct a v).symm.trans h)
    obtain ⟨-, haddr, -⟩ := plainLine_decText v.toNat
    exact plainLine_brackets haddr
  · exact nomatch hrefused.symm.trans h

theorem plainLine_immText (data : Immediate) (dest : Location) : PlainLine (immText data dest) := by
  have hvalue := plainLine_decText data.value
  cases hmem : dest.isMemAddr with
  | true =>
    rw [immText_of_memory hmem]
    exact hvalue.append (by cases data <;> rfl)
  | false => rwa [immText_of_register hmem]

theorem all_plainChar_mnemonic (i : Instruction) : (mnemonic i).all plainChar = true := by
  cases i <;> rfl

/-- A line with two operands is plain when they are: it ends as the second does. -/
theorem plainLine_of_twoOperandLine {i : Instruction} {dest : Location} {second : Formatted} {line : Text}
    (hsecond : ∀ x, second = .ok x → PlainLine x)
    (h : twoOperandLine (mnemonic i) (locText dest) second = .ok line) : PlainLine line := by
  obtain ⟨d, x, hd, hx, rfl⟩ := twoOperandLine_eq_ok h
  obtain ⟨-, hdest, -⟩ := plainLine_of_locText hd
  exact (hsecond x hx).append (by simp [all_plainChar_mnemonic, hdest, plainChar])

theorem plainLine_of_jumpLine {i : Instruction} {inc : Byte} {line : Text}
    (h : jumpLine (mnemonic i) inc = .ok line) : PlainLine line := by
  cases h
  exact (plainLine_decText _).append (by simp [all_plainChar_mnemonic, plainChar])

/-- Settles O55: each shape of line ends in an operand, a number or NOOP_TEXT, and nothing but plain characters stands
before it. -/
theorem linesArePlain : Obligations.LinesArePlain := by
  intro i line h
  have hline : PlainLine line := by
    obtain ⟨src, dest, -, hshape⟩ | ⟨data, dest, -, hshape⟩ | ⟨inc, -, hshape⟩ | ⟨-, hshape⟩ :=
      formatLine_cases defaultNoopText i
    · exact plainLine_of_twoOperandLine (fun _ => plainLine_of_locText) (hshape.symm.trans h)
    · refine plainLine_of_twoOperandLine (fun x hx => ?_) (hshape.symm.trans h)
      exact Except.ok.inj hx ▸ plainLine_immText data dest
    · exact plainLine_of_jumpLine (hshape.symm.trans h)
    · obtain rfl := Except.ok.inj (hshape.symm.trans h)
      exact ⟨by decide, by decide, by decide⟩
  obtain ⟨hne, hplain, hlast⟩ := hline
  exact ⟨hne, List.all_eq_true.mp hplain, hlast⟩

end Sys2Proof.Machine

/-! SUPPORT. What the first two bytes tell of an encoding: how many bytes it demands, and whether it is supported
(60_exceptions.md R241, R242). -/

namespace Sys2Proof
open Machine

/-! ### An unsupported encoding, by its first two bytes (30_encoding.md R66, R68, R69) -/

theorem demanded_of_not_recognised {b0 : Byte} (hlead : recognisedLead b0 = false) (b1 : Option Byte) :
    demanded b0 b1 = 1 := by
  have htests : ∀ b : Byte, recognisedLead b = false →
      b.toNat / 4 ∉ [0x00, 0x0A, 0x0E, 0x22] ∧ b.toNat / 2 ≠ 0x63 ∧ b.toNat / 4 ≠ 0x20 ∧
      b.toNat / 2 ∉ [0x02, 0x16, 0x1E] ∧ b.toNat / 16 ≠ 0x0B ∧ b.toNat / 2 ∉ [0x50, 0x51] ∧
      ¬(b.toNat / 16 = 0x07 ∨ b.toNat / 4 = 0x38) := by decide
  obtain ⟨hRM, hMI, hG1, hAI, hRI, hAM, hJ⟩ := htests b0 hlead
  simp only [demanded, if_neg hRM, if_neg hMI, if_neg hG1, if_neg hAI, if_neg hRI, if_neg hAM, if_neg hJ]

/-- Every recognised leading byte demands a second byte. -/
theorem one_lt_demanded_of_recognised : ∀ b0 : Byte, recognisedLead b0 = true → 1 < demanded b0 none := by decide

/-- The leading bytes of format G1, by the table's number and by their two flags. -/
theorem group_lead_toNat (s w : Bool) : (lead2 0b100000#6 s w).toNat / 4 = 0x20 := by
  revert s w; decide

theorem exists_lead2_of_group_lead : ∀ b0 : Byte, b0.toNat / 4 = 0x20 → ∃ s w, b0 = lead2 0b100000#6 s w := by
  decide

/-- What stands at the cursor when the decoder answers a Noop. -/
theorem noop_of_decode {b0 : Byte} {c c' : Cursor} {cause : NoopCause}
    (hd : decode (b0 :: c) = .got (.noop cause) c') :
    (cause = .leading b0 ∧ recognisedLead b0 = false) ∨
    ∃ s w b1, cause = .group s w b1 ∧ b0 = lead2 0b100000#6 s w ∧ c.head? = some b1 ∧
      supportedSub (b1.toNat / 8 % 8) = false := by
  obtain ⟨hwf, hbytes, hlook⟩ := encodeOfDecode _ _ _ hd
  cases cause with
  | leading b =>
    cases hbytes
    exact .inl ⟨rfl, by simpa [Instr.wf, NoopCause.wf] using hwf⟩
  | group s w b1 =>
    cases hbytes
    obtain ⟨d, rfl⟩ := hlook
    exact .inr ⟨s, w, b1, rfl, rfl, rfl, by simpa [Instr.wf, NoopCause.wf] using hwf⟩

/-- The decoder answers a Noop exactly on the bytes that the opcode map calls unsupported. -/
theorem decode_noop_iff (b0 : Byte) (c : Cursor) :
    (∃ cause c', decode (b0 :: c) = .got (.noop cause) c') ↔ unsupportedBytes b0 c.head? := by
  constructor
  · rintro ⟨cause, c', hd⟩
    rcases noop_of_decode hd with ⟨-, hlead⟩ | ⟨s, w, b1, -, rfl, hb1, hsub⟩
    · exact .inl hlead
    · exact .inr ⟨group_lead_toNat s w, b1, hb1, hsub⟩
  · rintro (hlead | ⟨hgroup, b1, hb1, hsub⟩)
    · exact ⟨_, _, decode_cons_of_not_recognised hlead c⟩
    · obtain ⟨s, w, rfl⟩ := exists_lead2_of_group_lead b0 hgroup
      obtain ⟨d, rfl⟩ := List.head?_eq_some_iff.mp hb1
      exact ⟨_, _, decode_encode_noop (cause := .group s w b1) (by simp [NoopCause.wf, hsub]) d⟩

/-! ### An answer looks at the bytes that the first two demand -/

theorem demanded_of_decode {b0 : Byte} {c c' : Cursor} {i : Instr} (hd : decode (b0 :: c) = .got i c') :
    demanded b0 c.head? = i.reach := by
  cases hn : isNoop i with
  | false =>
    obtain ⟨hwf, hbytes, -⟩ := encodeOfDecode _ _ _ hd
    rw [demanded_encode hwf hn hbytes, Instr.reach_of_not_noop hn]
  | true =>
    obtain ⟨cause, rfl⟩ := isNoop_eq_true hn
    rcases noop_of_decode hd with ⟨rfl, hlead⟩ | ⟨s, w, b1, rfl, rfl, hb1, hsub⟩
    · exact demanded_of_not_recognised hlead _
    · have hsub' : b1.toNat / 8 % 8 ∉ [0, 5, 7] := by simpa [supportedSub, and_assoc] using hsub
      rw [hb1, demanded_lead2_group, if_neg hsub']
      rfl

theorem reach_le_of_decode {bs c : Cursor} {i : Instr} (hd : decode bs = .got i c) : i.reach ≤ bs.length := by
  obtain ⟨u, e, rfl, hlen, -⟩ := decode_looksAtReach bs i c hd
  rw [List.length_append]
  omega

/-! ### With six bytes there is an answer (R65) -/

/-- The reader `r` answers wherever `n` bytes are left, and consumes no more than those. -/
def Answers {α : Type} (n : Nat) (r : Cursor → Read α) : Prop :=
  ∀ c, n ≤ c.length → ∃ v c', r c = .got v c' ∧ c.length ≤ n + c'.length

theorem Answers.got {α : Type} (n : Nat) (v : α) : Answers n (.got v) :=
  fun c _ => ⟨v, c, rfl, Nat.le_add_left _ _⟩

theorem Answers.mono {α : Type} {m n : Nat} {r : Cursor → Read α} (hr : Answers m r) (hle : m ≤ n) : Answers n r := by
  intro c hc
  obtain ⟨v, c', hv, hlen⟩ := hr c (hle.trans hc)
  exact ⟨v, c', hv, by omega⟩

theorem Answers.andThen {α β : Type} {m n : Nat} {r : Cursor → Read α} {f : α → Cursor → Read β}
    (hr : Answers m r) (hf : ∀ v, Answers n (f v)) : Answers (m + n) (fun c => (r c).andThen f) := by
  intro c hc
  obtain ⟨v, c₁, hv, hlen₁⟩ := hr c (by omega)
  obtain ⟨w, c₂, hw, hlen₂⟩ := hf v c₁ (by omega)
  refine ⟨w, c₂, ?_, by omega⟩
  show (r c).andThen f = _
  rw [hv, Read.got_andThen, hw]

theorem next_answers : Answers 1 next := by
  rintro (_ | ⟨b, c⟩) hc
  · cases hc
  · exact ⟨b, c, rfl, by simp [Nat.add_comm]⟩

theorem nextWord_answers : Answers 2 nextWord :=
  next_answers.andThen fun _ => next_answers.andThen fun _ => .got 0 _

theorem readRm_answers (m : BitVec 2) (r : BitVec 3) : Answers 2 (readRm m r) := by
  unfold readRm
  split_ifs
  · exact .got 2 _
  · exact nextWord_answers.andThen fun _ => .got 0 _
  · exact .got 2 _
  · exact (next_answers.andThen fun _ => .got 0 _).mono (by decide)
  · exact nextWord_answers.andThen fun _ => .got 0 _

theorem readImm_answers (w : Bool) : Answers 2 (readImm w) := by
  cases w
  · exact (next_answers.andThen fun _ => .got 0 _).mono (by decide)
  · exact nextWord_answers.andThen fun _ => .got 0 _

theorem readGroupImm_answers (s w : Bool) : Answers 2 (readGroupImm s w) := by
  unfold readGroupImm
  split_ifs
  · exact (next_answers.andThen fun _ => .got 0 _).mono (by decide)
  · exact nextWord_answers.andThen fun _ => .got 0 _
  · exact (next_answers.andThen fun _ => .got 0 _).mono (by decide)

theorem decodeGroup_answers (b0 : Byte) : Answers 5 (decodeGroup b0) := by
  rintro (_ | ⟨b1, c⟩) hc
  · cases hc
  · unfold decodeGroup
    rw [peek_cons, Read.got_andThen]
    split
    · exact ⟨_, _, rfl, Nat.le_add_left _ _⟩
    · exact (next_answers.andThen fun _ => (readRm_answers _ _).andThen fun _ =>
        (readGroupImm_answers _ _).andThen fun _ => .got 0 _) (b1 :: c) hc

/-- No format needs more than five bytes behind the leading one. -/
theorem Dispatch.answers {b0 : Byte} {r : Byte → Cursor → Read Instr} (hd : Dispatch b0 r) : Answers 5 (r b0) := by
  cases hd with
  | formatRM row d w =>
    exact next_answers.andThen fun _ => (readRm_answers _ _).andThen fun _ => .got 2 _
  | formatAI row w => exact (readImm_answers _).andThen fun _ => .got 3 _
  | formatG1 s w => exact decodeGroup_answers _
  | formatMI w =>
    exact next_answers.andThen fun _ => (readRm_answers _ _).andThen fun _ =>
      (readImm_answers _).andThen fun _ => .got 0 _
  | formatRI w r => exact (readImm_answers _).andThen fun _ => .got 3 _
  | formatAM row w => exact nextWord_answers.andThen fun _ => .got 3 _
  | formatJ row => exact next_answers.andThen fun _ => .got 4 _
  | formatN hlead => exact .got 5 _

theorem exists_decode_of_five_le (b0 : Byte) {c : Cursor} (hc : 5 ≤ c.length) :
    ∃ i c', decode (b0 :: c) = .got i c' := by
  obtain ⟨r, hr⟩ := exists_dispatch b0
  obtain ⟨i, c', hi, -⟩ := hr.answers c hc
  exact ⟨i, c', (hr.decode_cons c).trans hi⟩

/-! ### A stop, by the bytes demanded (R241) -/

/-- Bytes that stop the decoder stop short of what an answer on more of them looks at. -/
theorem length_lt_reach_of_stop {bs d c : Cursor} {q : DecodeStop} {i : Instr} (hstop : decode bs = .stop q)
    (hd : decode (bs ++ d) = .got i c) : bs.length < i.reach := by
  obtain ⟨u, e, hsplit, hlen, hu⟩ := decode_looksAtReach _ i c hd
  by_contra hle
  have hprefix : u <+: bs := List.prefix_of_prefix_length_le ⟨e, hsplit.symm⟩ (List.prefix_append bs d) (by omega)
  obtain ⟨e', rfl⟩ := hprefix
  obtain ⟨c', hc'⟩ := hu e'
  rw [hstop] at hc'
  cases hc'

/-- The decoder stops exactly where fewer bytes are left than the first two demand: zeros behind the bytes make an
answer of a stop, and leave the first two bytes what they are. -/
theorem decode_stops_iff (b0 : Byte) (c : Cursor) :
    (∃ q, decode (b0 :: c) = .stop q) ↔ c.length + 1 < demanded b0 c.head? := by
  constructor
  · rintro ⟨q, hstop⟩
    cases c with
    | nil =>
      refine one_lt_demanded_of_recognised b0 (Bool.eq_true_of_not_eq_false fun hlead => ?_)
      rw [decode_cons_of_not_recognised hlead] at hstop
      cases hstop
    | cons b1 c =>
      obtain ⟨i, c', hd⟩ := exists_decode_of_five_le b0 (c := b1 :: c ++ List.replicate 5 0#8) (by simp)
      exact (length_lt_reach_of_stop hstop hd).trans_eq (demanded_of_decode hd).symm
  · intro hlt
    cases hd : decode (b0 :: c) with
    | stop q => exact ⟨q, rfl⟩
    | got i c' =>
      have hle := reach_le_of_decode hd
      rw [← demanded_of_decode hd, List.length_cons] at hle
      omega

end Sys2Proof

/-! SUPPORT. The errors of a run, and what a step uses (60_exceptions.md R240 to R248; 70_reset_and_hazards.md R270 to
R275). -/

namespace Sys2Proof.Machine

/-! ### The decoder's answer at the cursor, by the first two bytes -/

theorem State.pos_lt_of_readByte {s : State} {b0 : Byte} (hb : s.readByte s.pos = some b0) : s.pos < s.bufLen := by
  by_contra hle
  rw [State.readByte_of_le (Nat.le_of_not_lt hle)] at hb
  cases hb

theorem State.remaining_eq_cons {s : State} {b0 : Byte} (hb : s.readByte s.pos = some b0) :
    ∃ c, s.remaining = b0 :: c ∧ c.head? = s.readByte (s.pos + 1) ∧ c.length + 1 = s.bufLen - s.pos := by
  have hhead : s.remaining.head? = some b0 := by rw [List.head?_eq_getElem?, State.remaining_getElem?]; exact hb
  obtain ⟨c, hc⟩ := List.head?_eq_some_iff.mp hhead
  refine ⟨c, hc, ?_, by rw [← s.remaining_length, hc, List.length_cons]⟩
  rw [← State.remaining_getElem?, hc, List.getElem?_cons_succ, List.head?_eq_getElem?]

/-- The decoder stops on the bytes of a step where it stops on all that are left. -/
theorem decode_window_stops_iff_remaining (s : State) :
    (∃ q, decode s.window = .stop q) ↔ ∃ q, decode s.remaining = .stop q := by
  refine ⟨fun ⟨q, hstop⟩ => ?_, fun ⟨q, hstop⟩ => ⟨q, decode_window_of_stop hstop⟩⟩
  cases hd : decode s.remaining with
  | stop q' => exact ⟨q', rfl⟩
  | got i c =>
    obtain ⟨c', hc'⟩ := decode_window_of_got hd
    rw [hstop] at hc'
    cases hc'

theorem decode_window_stops_iff {s : State} {b0 : Byte} (hb : s.readByte s.pos = some b0) :
    (∃ q, decode s.window = .stop q) ↔ s.bufLen - s.pos < demanded b0 (s.readByte (s.pos + 1)) := by
  obtain ⟨c, hc, hhead, hlen⟩ := State.remaining_eq_cons hb
  rw [decode_window_stops_iff_remaining, hc, decode_stops_iff, hhead, hlen]

theorem decode_window_noop_iff {s : State} {b0 : Byte} (hb : s.readByte s.pos = some b0) :
    (∃ cause c, decode s.window = .got (.noop cause) c) ↔ unsupportedBytes b0 (s.readByte (s.pos + 1)) := by
  obtain ⟨c, hc⟩ := State.window_eq_cons hb
  have hhead : c.head? = s.readByte (s.pos + 1) := by
    rw [List.head?_eq_getElem?, ← List.getElem?_cons_succ (a := b0), ← hc, State.window_getElem?]
    rfl
  rw [hc, decode_noop_iff, hhead]

/-! ### What a step that raises an error has found (R240 to R245) -/

theorem Raised.status {s t : State} {e : DecodeError} (h : Raised s t e) : t.status = .fault e :=
  congrArg State.status h

/-- Why a step at `s` raises `e`: a byte is missing, or the policy rejects the instruction. -/
inductive ErrorAt (s : State) : DecodeError → Prop where
  | truncated {q} (hd : decode s.window = .stop q) : ErrorAt s (.truncatedInstruction s.pos)
  | unsupported {cause c} (hd : decode s.window = .got (.noop cause) c) (hp : s.policy = .strictFail) :
      ErrorAt s (.unsupportedEncoding s.pos)

theorem raised_of_step {s t : State} {e : DecodeError} (h : step s = .next t) (he : t.status = .fault e) :
    ErrorAt s e ∧ Raised s t e := by
  obtain ⟨hs, hcase⟩ := stepCase_of_step h
  cases hcase with
  | atEnd hp => cases he
  | cut hp hd => cases he; exact ⟨.truncated hd, s.truncate_raised⟩
  | rejected hd hr =>
    cases he
    obtain ⟨hn, hp⟩ := rejects_eq_true.mp hr
    obtain ⟨cause, rfl⟩ := isNoop_eq_true hn
    exact ⟨.unsupported hd hp, s.reject_raised⟩
  | accepted hd hr => rw [State.emitted_status, hs] at he; cases he

/-- Settles O35: either end of a step that fails is a raised error, and a faulted state has no step. -/
theorem raisingAnError : Obligations.RaisingAnError := by
  intro s t e _ h he
  obtain ⟨hcause, hraised⟩ := raised_of_step h he
  refine ⟨?_, hraised, step_of_fault he, by simp [State.result, he]⟩
  cases hcause with
  | truncated hd => exact .inl rfl
  | unsupported hd hp => exact .inr ⟨rfl, hp⟩

/-! ### `TruncatedInstruction` (R241) -/

theorem step_truncates {s : State} {b0 : Byte} (hs : s.status = .running) (hb : s.readByte s.pos = some b0)
    (hlt : s.bufLen - s.pos < demanded b0 (s.readByte (s.pos + 1))) :
    ∃ t, step s = .next t ∧ Raised s t (.truncatedInstruction s.pos) := by
  obtain ⟨q, hstop⟩ := (decode_window_stops_iff hb).mpr hlt
  exact ⟨_, step_of_cut hs (State.pos_lt_of_readByte hb).ne hstop, s.truncate_raised⟩

/-- Settles O36: the step raises the error where the decoder stops, and that is where fewer bytes are left than the
first two demand. -/
theorem truncationExactly : Obligations.TruncationExactly := by
  intro s b0 hs hb
  refine ⟨⟨fun ⟨t, h, hraised⟩ => ?_, step_truncates hs hb⟩, fun t o h ho => ?_⟩
  · obtain ⟨hcause, -⟩ := raised_of_step h hraised.status
    cases hcause with
    | truncated hd => exact (decode_window_stops_iff hb).mp ⟨_, hd⟩
  · obtain ⟨hcause, -⟩ := raised_of_step h ho
    cases hcause with
    | truncated hd => rfl

/-! ### `UnsupportedEncoding` (R242) -/

/-- A step at an unsupported encoding is left to the policy alone. -/
theorem step_by_policy {s : State} {b0 : Byte} (hs : s.status = .running) (hb : s.readByte s.pos = some b0)
    (hu : unsupportedBytes b0 (s.readByte (s.pos + 1))) :
    (s.policy = .lenientSkipOneByte → ∃ t, step s = .next t ∧ Emitted s t 1 .noop) ∧
    (s.policy = .strictFail → ∃ t, step s = .next t ∧ Raised s t (.unsupportedEncoding s.pos)) := by
  obtain ⟨cause, c, hd⟩ := (decode_window_noop_iff hb).mpr hu
  rw [stepRunsTheDecodedInstruction s _ c hs (State.pos_lt_of_readByte hb).ne hd]
  exact unsupportedByPolicy_of_reach_le (reach_le_of_decode_window hd)

/-- Settles O37: the error comes from a Noop that the policy rejects, and the decoder answers a Noop exactly on an
unsupported encoding. -/
theorem unsupportedExactly : Obligations.UnsupportedExactly := by
  intro s b0 hs hb
  refine ⟨⟨fun ⟨t, h, hraised⟩ => ?_, fun ⟨hp, hu⟩ => (step_by_policy hs hb hu).2 hp⟩,
    fun hp hu => (step_by_policy hs hb hu).1 hp⟩
  obtain ⟨hcause, -⟩ := raised_of_step h hraised.status
  cases hcause with
  | unsupported hd hp => exact ⟨hp, (decode_window_noop_iff hb).mp ⟨_, _, hd⟩⟩

/-! ### The order of the conditions (R248) -/

theorem step_unsupported {s : State} {b0 : Byte} (hs : s.status = .running) (hb : s.readByte s.pos = some b0)
    (hu : unsupportedBytes b0 (s.readByte (s.pos + 1))) :
    ∃ t, step s = .next t ∧
      if s.policy = .strictFail then Raised s t (.unsupportedEncoding s.pos) else Emitted s t 1 .noop := by
  obtain ⟨hlenient, hstrict⟩ := step_by_policy hs hb hu
  cases hp : s.policy with
  | strictFail => simpa using hstrict hp
  | lenientSkipOneByte => simpa using hlenient hp

/-- Settles O38: the end, an unsupported encoding, a missing byte; a recognised byte alone lacks the second byte it
demands. -/
theorem errorsInByteOrder : Obligations.ErrorsInByteOrder := by
  intro s hs
  refine ⟨fun hp => ⟨_, step_at_end hs hp, rfl⟩, fun b0 hb hlead => step_unsupported hs hb (.inl hlead), ?alone,
    fun b0 b1 hb hb1 hgroup hsub => step_unsupported hs hb (.inr ⟨hgroup, b1, hb1, hsub⟩),
    fun b0 hb _ hlt => step_truncates hs hb hlt, ?last⟩
  case alone =>
    intro b0 hb hlead hlen
    have hdem := one_lt_demanded_of_recognised b0 hlead
    refine step_truncates hs hb ?_
    rw [State.readByte_of_le (a := s.pos + 1) hlen.le]
    omega
  case last =>
    intro t e k _ he
    exact runSteps_of_over (by simp [he]) k

/-! ### The end of a run (70_reset_and_hazards.md R274) -/

/-- Settles O29: at the end of the buffer the step is `finish`; anywhere else it does not set Done. -/
theorem doneExactlyAtEndOfBuffer : Obligations.DoneExactlyAtEndOfBuffer := by
  intro s hs
  have hend : ∀ t, step s = .next t → t.status = .done → s.pos = s.bufLen := fun t h hdone => by
    by_contra hp
    exact step_not_done hp h hdone
  refine ⟨⟨fun ⟨t, h, hdone⟩ => hend t h hdone, fun hp => ⟨_, step_at_end hs hp, rfl⟩⟩, fun t h hdone => ?_⟩
  rw [step_at_end hs (hend t h hdone)] at h
  cases h
  rfl

/-! ### What a step uses (70_reset_and_hazards.md R275) -/

/-- Settles O40: the four cases of a step are told by the buffer, the policy and the cursor, which the other state
shares, and each state they leave holds the old values in front of the new. -/
theorem stepIgnoresHistory : Obligations.StepIgnoresHistory := by
  intro s k o hs
  have hwin : State.window { s with start := k, out := o } = s.window := State.window_congr rfl rfl rfl
  obtain ⟨t, h, hcase⟩ := exists_step hs
  cases hcase with
  | atEnd hp => exact ⟨_, [], h, (List.append_nil _).symm, (List.append_nil o).symm ▸ step_at_end hs hp⟩
  | cut hp hd =>
    exact ⟨_, [], h, (List.append_nil _).symm, (List.append_nil o).symm ▸ step_of_cut hs hp (hwin ▸ hd)⟩
  | rejected hd hr =>
    exact ⟨_, [], h, (List.append_nil _).symm, (List.append_nil o).symm ▸ step_of_rejected hs (hwin ▸ hd) hr⟩
  | @accepted i c hd hr => exact ⟨_, [valueOf i], h, rfl, step_of_accepted hs (hwin ▸ hd) hr⟩

/-! ### The start of a run (70_reset_and_hazards.md R270) -/

/-- Settles O47: the state is reset's with the host's bytes in it, each read back at its offset. -/
theorem startOfARun : Obligations.StartOfARun :=
  ⟨⟨rfl, rfl, rfl, rfl⟩, fun bytes p => ⟨rfl, rfl, rfl, rfl, rfl, rfl, State.load_readByte bytes p⟩⟩

end Sys2Proof.Machine
